-- ==== Sys2Proof/Word.lean ====
section
/-! DEFINITION. The machine's plain value types: bytes, the 64-bit pattern, the four operand widths, the four
operators, and the five kinds of fault the hardware itself raises. -/

namespace Sys2Proof

/-- A byte, `0 .. 255` (R5). -/
abbrev Byte := BitVec 8

/-- A 64-bit pattern: an arithmetic accumulator (R21) or the `RESULT` register (R18). -/
abbrev Word64 := BitVec 64

/-- A width `N`, always one of 1, 2, 4, 8 bytes, under the document's suffixes (R5, R9). -/
inductive Width where
  | b | sw | w | dw
deriving DecidableEq, Repr

/-- `N` itself, the byte count (R9: `b`/`sw`/`w`/`dw` = 1/2/4/8 bytes). -/
def Width.bytes : Width → Nat
  | .b => 1
  | .sw => 2
  | .w => 4
  | .dw => 8

/-- The operators of the arithmetic unit (R110). -/
inductive ArithOp where
  | add | sub | mul | div
deriving DecidableEq, Repr

/-- The five kinds of fault the hardware raises (R140); raising one is a next state (R147). -/
inductive FaultKind where
  | invalidOpcode | stackOverflow | stackUnderflow | divideByZero | truncatedProgram
deriving DecidableEq, Repr

end Sys2Proof
end

