-- ==== Sys2Proof/Machine/Bytes.lean ====
section
/-! DEFINITION. The numeric reading of byte sequences and the 64-bit conversions of R6. Push and pop never use them
(R37); the arithmetic unit and the final extraction do (R38). -/

namespace Sys2Proof.Machine

/-- `le_N(b)`: the little-endian reading, first byte least significant (R6; D4). -/
def leNat : List Byte → Nat
  | [] => 0
  | b :: bs => b.toNat + 256 * leNat bs

/-- `bytes_N(v)`: the `n` low bytes of `v`, least significant first (R6). -/
def leBytes : Nat → Nat → List Byte
  | 0, _ => []
  | n + 1, v => BitVec.ofNat 8 v :: leBytes n (v / 256)

/-- `zext_64(v)` (R6): the narrow value as a 64-bit pattern, upper bits 0. -/
def zext64 (v : Nat) : Word64 := BitVec.ofNat 64 v

/-- `signed_64(v)` (R6): two's complement reading. PRESUMED by the spec itself (G1), log 12; unsafe. -/
def signed64 (v : Word64) : Int := if v.toNat < 2 ^ 63 then v.toNat else (v.toNat : Int) - 2 ^ 64

/-- `wrap_64(i)` (R6): any integer modulo `2^64`. -/
def wrap64 (i : Int) : Word64 := BitVec.ofNat 64 (i % 2 ^ 64).toNat

/-- `trunc_N(v)` (R6): the low `n` bytes of a 64-bit pattern, as a number. -/
def truncN (n : Nat) (v : Word64) : Nat := v.toNat % 2 ^ (8 * n)

/-- `tdiv(a, b)` (R6): the quotient truncated toward zero, for `b ≠ 0`. -/
def tdiv (a b : Int) : Int := a.sign * b.sign * ((a.natAbs / b.natAbs : Nat) : Int)

end Sys2Proof.Machine
end

