-- ==== Sys2Proof/Syntax.lean ====
section
/-! DEFINITION. The instruction set: one constructor per row of spec/opcode_table.json (R53). A PUSH carries its
immediate as the byte sequence that follows the opcode, `imm[0]` first (R51, R52); no other instruction has an operand. -/

namespace Sys2Proof

/-- The 26 instructions, in the table's order. -/
inductive Instr where
  | nop
  | pushb (imm : List Byte)
  | pushsw (imm : List Byte)
  | pushw (imm : List Byte)
  | pushdw (imm : List Byte)
  | popb | popsw | popw | popdw
  | halt
  | addb | addsw | addw | adddw
  | subb | subsw | subw | subdw
  | mulb | mulsw | mulw | muldw
  | divb | divsw | divw | divdw
deriving DecidableEq, Repr

/-- The PUSH of width `n`. -/
def Instr.push : Width → List Byte → Instr
  | .b => .pushb
  | .sw => .pushsw
  | .w => .pushw
  | .dw => .pushdw

/-- The POP of width `n`. -/
def Instr.pop : Width → Instr
  | .b => .popb
  | .sw => .popsw
  | .w => .popw
  | .dw => .popdw

/-- The arithmetic instruction for operator `o` at width `n`. -/
def Instr.arith : ArithOp → Width → Instr
  | .add, .b => .addb
  | .add, .sw => .addsw
  | .add, .w => .addw
  | .add, .dw => .adddw
  | .sub, .b => .subb
  | .sub, .sw => .subsw
  | .sub, .w => .subw
  | .sub, .dw => .subdw
  | .mul, .b => .mulb
  | .mul, .sw => .mulsw
  | .mul, .w => .mulw
  | .mul, .dw => .muldw
  | .div, .b => .divb
  | .div, .sw => .divsw
  | .div, .w => .divw
  | .div, .dw => .divdw

/-- The immediate bytes an instruction carries in the program; empty for format Z (R51). -/
def Instr.imm : Instr → List Byte
  | .pushb imm | .pushsw imm | .pushw imm | .pushdw imm => imm
  | .nop | .halt => []
  | .popb | .popsw | .popw | .popdw => []
  | .addb | .addsw | .addw | .adddw => []
  | .subb | .subsw | .subw | .subdw => []
  | .mulb | .mulsw | .mulw | .muldw => []
  | .divb | .divsw | .divw | .divdw => []

/-- `W`, the immediate width that the opcode alone decides (R50). -/
def Instr.immWidth : Instr → Nat
  | .pushb _ => 1
  | .pushsw _ => 2
  | .pushw _ => 4
  | .pushdw _ => 8
  | .nop | .halt => 0
  | .popb | .popsw | .popw | .popdw => 0
  | .addb | .addsw | .addw | .adddw => 0
  | .subb | .subsw | .subw | .subdw => 0
  | .mulb | .mulsw | .mulw | .muldw => 0
  | .divb | .divsw | .divw | .divdw => 0

end Sys2Proof
end

