-- ==== Sys2Proof/WellFormed.lean ====
section
/-! DEFINITION. Which terms of `Instr` are instructions of the hardware: a PUSH of width `N` carries exactly `N`
immediate bytes (R50). Every other constructor is an instruction as it stands, and every byte value is a legal
immediate (R54). -/

namespace Sys2Proof

/-- The term's immediate has the length its opcode fixes (R50, R51). -/
abbrev Instr.WellFormed (i : Instr) : Prop := i.imm.length = i.immWidth

end Sys2Proof
end

