-- ==== Sys2Proof/Decode.lean ====
section
/-! DEFINITION. The encoding (R50 to R56): the opcode map, a decoder that is total on any bytes and rejects by name,
and the encoder. The whole opcode byte is compared; nothing slices it (R51). -/

namespace Sys2Proof

/-- What an opcode byte asks for: a format Z instruction, or the immediate bytes of a format I<n> one (R51). -/
inductive Shape where
  | zero (i : Instr)
  | push (n : Width)
deriving DecidableEq, Repr

/-- The opcode map `OPC` of R53, byte by byte (D1, log 5); `none` for the 230 invalid values (R54). -/
def shapeOf (op : Byte) : Option Shape :=
  match op.toNat with
  | 0x00 => some (.zero .nop)
  | 0x01 => some (.push .b)
  | 0x02 => some (.push .sw)
  | 0x03 => some (.push .w)
  | 0x04 => some (.push .dw)
  | 0x05 => some (.zero .popb)
  | 0x06 => some (.zero .popsw)
  | 0x07 => some (.zero .popw)
  | 0x08 => some (.zero .popdw)
  | 0x09 => some (.zero .halt)
  | 0x0A => some (.zero .addb)
  | 0x0B => some (.zero .addsw)
  | 0x0C => some (.zero .addw)
  | 0x0D => some (.zero .adddw)
  | 0x0E => some (.zero .subb)
  | 0x0F => some (.zero .subsw)
  | 0x10 => some (.zero .subw)
  | 0x11 => some (.zero .subdw)
  | 0x12 => some (.zero .mulb)
  | 0x13 => some (.zero .mulsw)
  | 0x14 => some (.zero .mulw)
  | 0x15 => some (.zero .muldw)
  | 0x16 => some (.zero .divb)
  | 0x17 => some (.zero .divsw)
  | 0x18 => some (.zero .divw)
  | 0x19 => some (.zero .divdw)
  | _ => none

/-- Why a byte string holds no instruction at its start. -/
inductive DecodeError where
  /-- There is no byte at all: the cursor stands at the end of the program (R70). -/
  | noBytes
  /-- The first byte is none of the 26 opcodes (R54). -/
  | invalidOpcode (op : Byte)
  /-- The opcode is a PUSH of width `n` and fewer than `n` bytes follow it (R56). -/
  | truncated (n : Width)
deriving DecidableEq, Repr

/-- The instruction at the start of a byte string, with the bytes after it (R50, R52, R54, R56). -/
def decode : List Byte → Except DecodeError (Instr × List Byte)
  | [] => .error .noBytes
  | op :: rest =>
    match shapeOf op with
    | none => .error (.invalidOpcode op)
    | some (.zero i) => .ok (i, rest)
    | some (.push n) =>
      if rest.length < n.bytes then .error (.truncated n)
      else .ok (.push n (rest.take n.bytes), rest.drop n.bytes)

/-- The opcode byte of an instruction: R53's table read from mnemonic to byte. -/
def opcode : Instr → Byte
  | .nop => 0x00
  | .pushb _ => 0x01
  | .pushsw _ => 0x02
  | .pushw _ => 0x03
  | .pushdw _ => 0x04
  | .popb => 0x05
  | .popsw => 0x06
  | .popw => 0x07
  | .popdw => 0x08
  | .halt => 0x09
  | .addb => 0x0A
  | .addsw => 0x0B
  | .addw => 0x0C
  | .adddw => 0x0D
  | .subb => 0x0E
  | .subsw => 0x0F
  | .subw => 0x10
  | .subdw => 0x11
  | .mulb => 0x12
  | .mulsw => 0x13
  | .mulw => 0x14
  | .muldw => 0x15
  | .divb => 0x16
  | .divsw => 0x17
  | .divw => 0x18
  | .divdw => 0x19

/-- The bytes of an instruction: one opcode byte followed directly by its immediate bytes (R50). -/
def encode (i : Instr) : List Byte := opcode i :: i.imm

/-- The longest instruction, a PUSHDW, in bytes (R50). -/
def maxInstrBytes : Nat := 9

/-- The bytes of a table word in program order: bits 7:0 are the byte at the lowest address (R51). Bits above `nbits`
are 0, up to the longest instruction. -/
def wordBytes (nbits w : Nat) : List Byte := Machine.leBytes maxInstrBytes (w % 2 ^ nbits)

/-- The instruction the decoder reads from a word of spec/opcode_table.json. -/
def decodeTableWord (nbits w : Nat) : Option Instr :=
  match decode (wordBytes nbits w) with
  | .ok (i, _) => some i
  | .error _ => none

end Sys2Proof
end

