-- ==== Sys2Proof/Machine/Alu.lean ====
section
/-! DEFINITION. The arithmetic unit's four operators on 64-bit patterns (R112). No flag is written (R20). -/

namespace Sys2Proof.Machine

/-- `A op B` in 64-bit arithmetic, wrapping modulo `2^64` (R112; D7). DIV truncates toward zero on the signed readings
(R115; D5, D6) and is used only for `B ≠ 0` (R116). -/
def alu : ArithOp → Word64 → Word64 → Word64
  | .add, a, b => wrap64 ((a.toNat : Int) + b.toNat)
  | .sub, a, b => wrap64 ((a.toNat : Int) - b.toNat)
  | .mul, a, b => wrap64 ((a.toNat : Int) * b.toNat)
  | .div, a, b => wrap64 (tdiv (signed64 a) (signed64 b))

end Sys2Proof.Machine
end

