-- ==== Sys2Proof/Config.lean ====
section
/-! DEFINITION. What one implementation fixes (R4): the stack capacity `C` and the width `IPW` of `ip`, with the two
numbers computed from them, `L_MAX` and `TW`. The spec leaves `C` and `IPW` open, so they are data and not constants:
a statement holds for every value of them. The opcode map `OPC` is fixed in Decode.lean (log 5). -/

namespace Sys2Proof

/-- The implementation parameters of R4. -/
structure Config where
  /-- `C`, the stack capacity in bytes. -/
  capacity : Nat
  /-- `IPW`, the width of `ip` in bits. -/
  ipWidth : Nat
deriving DecidableEq, Repr

/-- R4's default values: `C = 4096` (D8) and `IPW = 32` (D16). DESIGN CHOICE, log 3; unsafe where a claim names them. -/
def Config.default : Config := { capacity := 4096, ipWidth := 32 }

/-- R4's constraints `C >= 1` and `IPW >= 1`. -/
abbrev Config.Valid (c : Config) : Prop := 1 ≤ c.capacity ∧ 1 ≤ c.ipWidth

/-- `L_MAX = 2^IPW - 1`, the largest program length (R4). -/
def Config.maxProgLen (c : Config) : Nat := 2 ^ c.ipWidth - 1

/-- `TW`, the smallest width with `2^(TW-1) >= C` (R4, R12); 13 when `C = 4096`. -/
def Config.topWidth (c : Config) : Nat :=
  if c.capacity ≤ 1 then 1 else (c.capacity - 1).log2 + 2

end Sys2Proof
end

