-- ==== Sys2Proof/Machine/Memory.lean ====
section
/-! DEFINITION. The stack space's bytes as plain data in one canonical form: a list of cells, addresses strictly
rising, no cell equal to what an unlisted address reads as. Bounds are checked in Ops.lean, not here. -/

namespace Sys2Proof.Machine

/-- The contents of the stack space (R13). -/
abbrev Memory := List Host.Cell

/-- What an address that nothing has written reads as. The spec gives the buffer no reset contents (R26) and no rule
reads such a byte (R15). DESIGN CHOICE, log 2; unsafe. -/
def Memory.unwritten : Byte := 0

/-- The canonical form, so that equal contents are equal lists. -/
abbrev Memory.wf (m : Memory) : Prop :=
  m.Pairwise (fun c d => c.1 < d.1) ∧ ∀ c ∈ m, c.2 ≠ Memory.unwritten

/-- One byte. -/
def Memory.read : Memory → Nat → Byte
  | [], _ => Memory.unwritten
  | (k, v) :: m, a => if k = a then v else Memory.read m a

/-- A cell at the front of a memory, unless it holds what an unlisted address reads as. -/
def Memory.cons (a : Nat) (v : Byte) (m : Memory) : Memory :=
  if v = Memory.unwritten then m else (a, v) :: m

/-- Store one byte, keeping the canonical form. -/
def Memory.write : Memory → Nat → Byte → Memory
  | [], a, v => Memory.cons a v []
  | (k, w) :: m, a, v =>
    if a < k then Memory.cons a v ((k, w) :: m)
    else if a = k then Memory.cons a v m
    else (k, w) :: Memory.write m a v

/-- `n` bytes in increasing address order (R34). -/
def Memory.readBytes (m : Memory) (a : Nat) : Nat → List Byte
  | 0 => []
  | n + 1 => m.read a :: Memory.readBytes m (a + 1) n

/-- Store a byte sequence, its first byte at the lowest address (R34). -/
def Memory.writeBytes (m : Memory) (a : Nat) : List Byte → Memory
  | [] => m
  | b :: bs => Memory.writeBytes (m.write a b) (a + 1) bs

end Sys2Proof.Machine
end

