-- ==== Sys2Proof/Machine/State.lean ====
section
/-! DEFINITION. The machine's state (R10) with the parameters of a run beside it, the reasons a step can stop, and the
state after reset (R26). -/

namespace Sys2Proof.Machine

/-- `STATUS` (R16). -/
inductive Status where
  | running | done | faulted
deriving DecidableEq, Repr

/-- `ERR` (R17): `NONE` or one of the five kinds. -/
inductive Err where
  | none
  | fault (k : FaultKind)
deriving DecidableEq, Repr

/-- The stops of the MODEL. The hardware's own five faults are not here: the spec describes what each does (R147), so
raising one is a next state. -/
inductive Fault where
  /-- Raised by `step` when `STATUS` is not `RUNNING`: the sequencer takes no step (R80), and a step requires
  `RUNNING` (R70). Safe: nothing runs on. -/
  | notRunning
  /-- Raised by a stack access outside `0 .. C-1` (R34): no such byte exists. Only in states outside R14's invariant
  `-1 <= top < C`, which no run reaches. Safe: nothing runs on. -/
  | outsideStackSpace
deriving DecidableEq, Repr

/-- What the model gives no meaning to. -/
inductive Refusal where
  /-- Raised by exec's arm of an instruction without a meaning; no arm raises it in this model. Safe. -/
  | notModelled (mnemonic : String)
  /-- Raised by a PUSH whose term carries a number of immediate bytes other than its width: such a term is no
  instruction (R50) and no bytes decode to it. Safe. -/
  | illFormedImmediate
deriving DecidableEq, Repr

/-- The architectural state (R10), and the run's parameters (R4), which no step changes. -/
structure State where
  /-- `C` and `IPW`: parameters (R4). -/
  cfg : Config
  /-- `P`, the program; `L` is its length (R4, R31). -/
  prog : List Byte
  /-- The program cursor (R11). -/
  ip : Nat
  /-- `top_index`, -1 when the stack is empty (R12). -/
  top : Int
  /-- `S`, the stack buffer (R13). -/
  stack : Memory
  /-- `STATUS` (R16). -/
  status : Status
  /-- `ERR` (R17). -/
  err : Err
  /-- `RESULT` (R18), meaningful only when `STATUS` is `DONE`. -/
  result : Word64
deriving DecidableEq, Repr

/-- The state a reset leaves, with the run's parameters presented (R26, R170, R171). `S` and `RESULT` are unspecified
by the spec: DESIGN CHOICE 0, log 1 and log 2; unsafe. -/
def State.start (c : Config) (p : List Byte) : State :=
  { cfg := c, prog := p, ip := 0, top := -1, stack := [], status := .running, err := .none, result := 0 }

/-- The machine right after reset, no program loaded, parameters at R4's defaults (log 3, log 4). -/
def State.reset : State := State.start Config.default []

end Sys2Proof.Machine
end

