-- ==== Sys2Proof/Machine/Operands.lean ====
section
/-! DEFINITION. The operand forms. Every operand is implicit and relative to `top` (R19, R30), but for the inline
immediate of a PUSH, which the decoder takes from the program (R52). -/

namespace Sys2Proof.Machine

/-- Where a push stores its first byte: `top + 1` (R35). -/
def State.pushAddr (s : State) : Int := s.top + 1

/-- Where a pop of `n` bytes, and operand A of an arithmetic instruction, begin: `top - N + 1` (R36, R110). -/
def State.addrA (s : State) (n : Width) : Int := s.top - n.bytes + 1

/-- Where operand B begins and the result is stored: `top - 2N + 1` (R110). -/
def State.addrB (s : State) (n : Width) : Int := s.top - 2 * n.bytes + 1

/-- Operand A as a number: the little-endian reading of the `N` topmost bytes (R114). -/
def State.operandA (s : State) (n : Width) : Nat := leNat (s.stack.readBytes (s.addrA n).toNat n.bytes)

/-- Operand B as a number: the little-endian reading of the `N` bytes beneath A (R114). -/
def State.operandB (s : State) (n : Width) : Nat := leNat (s.stack.readBytes (s.addrB n).toNat n.bytes)

end Sys2Proof.Machine
end

