-- ==== Sys2Proof/Machine/Ops.lean ====
section
/-! DEFINITION. The named operations over memory and registers that every meaning uses: program and stack accesses,
Push and Pop, raising a fault, advancing `ip`. -/

namespace Sys2Proof.Machine

/-- `ProgRead(addr, n)` (R33): defined only inside the program. -/
def State.progRead (s : State) (addr n : Nat) : Option (List Byte) :=
  if addr + n ≤ s.prog.length then some ((s.prog.drop addr).take n) else none

/-- `MemRead(addr, n)` (R34): defined only inside `0 .. C-1`. -/
def State.memRead (s : State) (addr : Int) (n : Nat) : Option (List Byte) :=
  if 0 ≤ addr ∧ addr + n ≤ s.cfg.capacity then some (s.stack.readBytes addr.toNat n) else none

/-- `MemWrite(addr, n, v)` (R34), `n` the length of `v`: defined only inside `0 .. C-1`. -/
def State.memWrite (s : State) (addr : Int) (v : List Byte) : Option State :=
  if 0 ≤ addr ∧ addr + v.length ≤ s.cfg.capacity then
    some { s with stack := s.stack.writeBytes addr.toNat v }
  else none

/-- `ip <- ip + 1 + W` (R75). -/
def State.advance (s : State) (w : Nat) : State := { s with ip := s.ip + 1 + w }

/-- `top <- t`. -/
def State.setTop (s : State) (t : Int) : State := { s with top := t }

/-- Fault entry (R147), the one shared operation every fault goes through: `ERR` takes the kind, `STATUS` becomes
`FAULTED`, and nothing else changes (R148). There is no return from it but reset (R149). -/
def State.raised (s : State) (k : FaultKind) : State := { s with err := .fault k, status := .faulted }

/-- The end of a run: `RESULT` takes the value and `STATUS` becomes `DONE` (R71). -/
def State.finished (s : State) (v : Word64) : State := { s with result := v, status := .done }

/-- Why an operation did not complete: it raised one of the hardware's faults, or the model stopped. -/
inductive Stop where
  | raise (k : FaultKind)
  | fault (f : Fault)
deriving DecidableEq, Repr

/-- `Push(N, b)` (R35), for `b` of length `N`. -/
def State.push (s : State) (n : Width) (b : List Byte) : Except Stop State :=
  if s.top + n.bytes ≥ s.cfg.capacity then .error (.raise .stackOverflow)
  else
    match s.memWrite s.pushAddr b with
    | some t => .ok (t.setTop (s.top + n.bytes))
    | none => .error (.fault .outsideStackSpace)

/-- `Pop(N)` (R36): the top `N` bytes in increasing address order, and the state with them popped. -/
def State.pop (s : State) (n : Width) : Except Stop (List Byte × State) :=
  if s.top + 1 < n.bytes then .error (.raise .stackUnderflow)
  else
    match s.memRead (s.addrA n) n.bytes with
    | some b => .ok (b, s.setTop (s.top - n.bytes))
    | none => .error (.fault .outsideStackSpace)

/-- `ARITH(O, N)` (R110), less the advance of `ip`: the checks first, so that a fault leaves both operands (R148). -/
def State.arith (s : State) (o : ArithOp) (n : Width) : Except Stop State :=
  if s.top + 1 < 2 * n.bytes then .error (.raise .stackUnderflow)
  else
    match s.memRead (s.addrA n) n.bytes, s.memRead (s.addrB n) n.bytes with
    | some a, some b =>
      if o = .div ∧ zext64 (leNat b) = 0 then .error (.raise .divideByZero)
      else
        match s.memWrite (s.addrB n)
            (leBytes n.bytes (truncN n.bytes (alu o (zext64 (leNat a)) (zext64 (leNat b))))) with
        | some t => .ok (t.setTop (s.top - n.bytes))
        | none => .error (.fault .outsideStackSpace)
    | _, _ => .error (.fault .outsideStackSpace)

/-- End a step that began in `s`: a completed operation is the next state, a raised fault is fault entry FROM THE
STATE BEFORE THE STEP (R147, R148), a stop is a stop. -/
def State.settle (s : State) : Except Stop State → Host.Outcome State Fault Refusal
  | .ok t => .next t
  | .error (.raise k) => .next (s.raised k)
  | .error (.fault f) => .fault f

/-- `peek_debug` (R79): the live bytes, top to bottom; diagnostic only. -/
def State.peekDebug (s : State) : List Byte := (s.stack.readBytes 0 (s.top + 1).toNat).reverse

end Sys2Proof.Machine
end

