-- ==== Sys2Proof/Machine/Arith.lean ====
section
/-! DEFINITION. The sixteen arithmetic instructions (R110, R120 to R135). -/

namespace Sys2Proof.Machine

/-- An arithmetic instruction (R110): the unit's operation, then `ip <- ip + 1`. -/
def arithStep (o : ArithOp) (n : Width) (s : State) : Host.Outcome State Fault Refusal :=
  match s.arith o n with
  | .ok t => s.settle (.ok (t.advance 0))
  | .error e => s.settle (.error e)

/-- `ADDB` (R120). -/
def execAddb (s : State) : Host.Outcome State Fault Refusal := arithStep .add .b s

/-- `ADDSW` (R121). -/
def execAddsw (s : State) : Host.Outcome State Fault Refusal := arithStep .add .sw s

/-- `ADDW` (R122). -/
def execAddw (s : State) : Host.Outcome State Fault Refusal := arithStep .add .w s

/-- `ADDDW` (R123). -/
def execAdddw (s : State) : Host.Outcome State Fault Refusal := arithStep .add .dw s

/-- `SUBB` (R124). -/
def execSubb (s : State) : Host.Outcome State Fault Refusal := arithStep .sub .b s

/-- `SUBSW` (R125). -/
def execSubsw (s : State) : Host.Outcome State Fault Refusal := arithStep .sub .sw s

/-- `SUBW` (R126). -/
def execSubw (s : State) : Host.Outcome State Fault Refusal := arithStep .sub .w s

/-- `SUBDW` (R127). -/
def execSubdw (s : State) : Host.Outcome State Fault Refusal := arithStep .sub .dw s

/-- `MULB` (R128). -/
def execMulb (s : State) : Host.Outcome State Fault Refusal := arithStep .mul .b s

/-- `MULSW` (R129). -/
def execMulsw (s : State) : Host.Outcome State Fault Refusal := arithStep .mul .sw s

/-- `MULW` (R130). -/
def execMulw (s : State) : Host.Outcome State Fault Refusal := arithStep .mul .w s

/-- `MULDW` (R131). -/
def execMuldw (s : State) : Host.Outcome State Fault Refusal := arithStep .mul .dw s

/-- `DIVB` (R132). -/
def execDivb (s : State) : Host.Outcome State Fault Refusal := arithStep .div .b s

/-- `DIVSW` (R133). -/
def execDivsw (s : State) : Host.Outcome State Fault Refusal := arithStep .div .sw s

/-- `DIVW` (R134). -/
def execDivw (s : State) : Host.Outcome State Fault Refusal := arithStep .div .w s

/-- `DIVDW` (R135). -/
def execDivdw (s : State) : Host.Outcome State Fault Refusal := arithStep .div .dw s

end Sys2Proof.Machine
end

