-- ==== Sys2Proof/Machine/Control.lean ====
section
/-! DEFINITION. NOP and HALT (R72, R73). -/

namespace Sys2Proof.Machine

/-- `NOP` (R72). -/
def execNop (s : State) : Host.Outcome State Fault Refusal := .next (s.advance 0)

/-- `HALT` (R73; D3): it does not stop the sequencer; it advances `ip` by 1 and does nothing else. -/
def execHalt (s : State) : Host.Outcome State Fault Refusal := .next (s.advance 0)

end Sys2Proof.Machine
end

