-- ==== Sys2Proof/Machine/Pop.lean ====
section
/-! DEFINITION. The four POP instructions (R90, R95 to R98). -/

namespace Sys2Proof.Machine

/-- `POP<N>` (R90): the popped bytes are discarded and stay in the buffer as dead bytes (R13). -/
def popDiscard (n : Width) (s : State) : Host.Outcome State Fault Refusal :=
  match s.pop n with
  | .ok (_, t) => s.settle (.ok (t.advance 0))
  | .error e => s.settle (.error e)

/-- `POPB` (R95). -/
def execPopb (s : State) : Host.Outcome State Fault Refusal := popDiscard .b s

/-- `POPSW` (R96). -/
def execPopsw (s : State) : Host.Outcome State Fault Refusal := popDiscard .sw s

/-- `POPW` (R97). -/
def execPopw (s : State) : Host.Outcome State Fault Refusal := popDiscard .w s

/-- `POPDW` (R98). -/
def execPopdw (s : State) : Host.Outcome State Fault Refusal := popDiscard .dw s

end Sys2Proof.Machine
end

