-- ==== Sys2Proof/Machine/Push.lean ====
section
/-! DEFINITION. The four PUSH instructions (R90 to R94). -/

namespace Sys2Proof.Machine

/-- `PUSH<N>` (R90): `TruncatedProgram` is checked before `StackOverflow` (R146). A term whose immediate is not `N`
bytes long is no instruction and is refused (log 9). -/
def pushImm (n : Width) (imm : List Byte) (s : State) : Host.Outcome State Fault Refusal :=
  if imm.length ≠ n.bytes then .refused .illFormedImmediate
  else if s.ip + n.bytes ≥ s.prog.length then s.settle (.error (.raise .truncatedProgram))
  else
    match s.push n imm with
    | .ok t => s.settle (.ok (t.advance n.bytes))
    | .error e => s.settle (.error e)

/-- `PUSHB imm8` (R91). -/
def execPushb (imm : List Byte) (s : State) : Host.Outcome State Fault Refusal := pushImm .b imm s

/-- `PUSHSW imm16` (R92). -/
def execPushsw (imm : List Byte) (s : State) : Host.Outcome State Fault Refusal := pushImm .sw imm s

/-- `PUSHW imm32` (R93). -/
def execPushw (imm : List Byte) (s : State) : Host.Outcome State Fault Refusal := pushImm .w imm s

/-- `PUSHDW imm64` (R94). -/
def execPushdw (imm : List Byte) (s : State) : Host.Outcome State Fault Refusal := pushImm .dw imm s

end Sys2Proof.Machine
end

