-- ==== Sys2Proof/Machine/Dispatch.lean ====
section
/-! DEFINITION. One arm per constructor of `Instr`, each one call of its meaning. -/

namespace Sys2Proof.Machine

def exec (i : Instr) (s : State) : Host.Outcome State Fault Refusal :=
  match i with
  | .nop => Sys2Proof.Machine.execNop s
  | .pushb imm => Sys2Proof.Machine.execPushb imm s
  | .pushsw imm => Sys2Proof.Machine.execPushsw imm s
  | .pushw imm => Sys2Proof.Machine.execPushw imm s
  | .pushdw imm => Sys2Proof.Machine.execPushdw imm s
  | .popb => Sys2Proof.Machine.execPopb s
  | .popsw => Sys2Proof.Machine.execPopsw s
  | .popw => Sys2Proof.Machine.execPopw s
  | .popdw => Sys2Proof.Machine.execPopdw s
  | .halt => Sys2Proof.Machine.execHalt s
  | .addb => Sys2Proof.Machine.execAddb s
  | .addsw => Sys2Proof.Machine.execAddsw s
  | .addw => Sys2Proof.Machine.execAddw s
  | .adddw => Sys2Proof.Machine.execAdddw s
  | .subb => Sys2Proof.Machine.execSubb s
  | .subsw => Sys2Proof.Machine.execSubsw s
  | .subw => Sys2Proof.Machine.execSubw s
  | .subdw => Sys2Proof.Machine.execSubdw s
  | .mulb => Sys2Proof.Machine.execMulb s
  | .mulsw => Sys2Proof.Machine.execMulsw s
  | .mulw => Sys2Proof.Machine.execMulw s
  | .muldw => Sys2Proof.Machine.execMuldw s
  | .divb => Sys2Proof.Machine.execDivb s
  | .divsw => Sys2Proof.Machine.execDivsw s
  | .divw => Sys2Proof.Machine.execDivw s
  | .divdw => Sys2Proof.Machine.execDivdw s

end Sys2Proof.Machine
end

