-- ==== Sys2Proof/Machine/Sequencer.lean ====
section
/-! DEFINITION. The sequencer: fetching the instruction at `ip`, the faults found before an instruction runs, the final
extraction, the step itself, the host's reset, and placing bytes in the program. -/

namespace Sys2Proof.Machine

/-- The program bytes from `ip` on. -/
def State.fetchBytes (s : State) : List Byte := s.prog.drop s.ip

/-- Read the opcode at `ip` and the immediate that follows it (R52, R70). -/
def State.fetch (s : State) : Except DecodeError (Instr × List Byte) := decode s.fetchBytes

/-- The final extraction (R71): a fixed 8-byte pop, reported little-endian (R38). It leaves `ip` unchanged. -/
def finalExtraction (s : State) : Host.Outcome State Fault Refusal :=
  match s.pop .dw with
  | .ok (b, t) => s.settle (.ok (t.finished (BitVec.ofNat 64 (leNat b))))
  | .error e => s.settle (.error e)

/-- What a step does when no instruction stands at `ip`: an invalid opcode byte (R74) or a PUSH whose immediate runs
past the end of the program (R56) raises its fault; no byte at all is the end of the program (R71). -/
def State.noInstruction (s : State) : DecodeError → Host.Outcome State Fault Refusal
  | .noBytes => finalExtraction s
  | .invalidOpcode _ => s.settle (.error (.raise .invalidOpcode))
  | .truncated _ => s.settle (.error (.raise .truncatedProgram))

/-- Reset applied in any state, with the program `p` then presented (R170, R171): whatever run was in progress leaves
no trace, and only the implementation's parameters stay (log 14). -/
def State.applyReset (s : State) (p : List Byte) : State := State.start s.cfg p

/-- A program with `bytes` in place from address `ip` on: what stands before and after them stays, and a program that
ends before `ip` is padded with zero bytes up to it. -/
def placeBytes (p : List Byte) (ip : Nat) (bytes : List Byte) : List Byte :=
  p.take ip ++ List.replicate (ip - p.length) 0 ++ bytes ++ p.drop (ip + bytes.length)

/-- A table word placed where the sequencer fetches its next instruction: in the program at `ip` (log 20). It fetches
only while `STATUS` is `RUNNING` (R70), so that is set too. -/
def State.placeWord (s : State) (nbits w : Nat) : State :=
  { s with prog := placeBytes s.prog s.ip (wordBytes nbits w), status := .running }

/-- The step (R70): none unless `STATUS` is `RUNNING` (R80); the final extraction at the end of the program (R71);
otherwise the instruction at `ip`. -/
def sequencerStep (s : State) : Host.Outcome State Fault Refusal :=
  if s.status ≠ .running then .fault .notRunning
  else if s.prog.length ≤ s.ip then finalExtraction s
  else
    match s.fetch with
    | .ok (i, _) => exec i s
    | .error e => s.noInstruction e

end Sys2Proof.Machine
end

