-- ==== Sys2Proof/Machine/Assembler.lean ====
section
/-! DEFINITION. Programs as byte strings and as text: assembly and disassembly (R52, R55, R57, R58; D2). They stand
outside the hardware (R3 f) and no step uses them. -/

namespace Sys2Proof.Machine

/-- The program bytes of a list of instructions, laid out contiguously (R50). -/
def assemble (is : List Instr) : List Byte := is.flatMap encode

/-- The immediate of a PUSH of width `n` written as a number (R52): little-endian, a negative number as two's
complement of the width; `none` outside `-2^(8N-1) .. 2^(8N)-1`, of which R52 says nothing (DESIGN CHOICE, log 17). -/
def immOfInt (n : Width) (v : Int) : Option (List Byte) :=
  if -(2 ^ (8 * n.bytes - 1) : Int) ≤ v ∧ v < 2 ^ (8 * n.bytes) then
    some (leBytes n.bytes (v % 2 ^ (8 * n.bytes)).toNat)
  else none

/-- One line of a disassembly (R58). -/
inductive Line where
  | instr (i : Instr)
  | fault (k : FaultKind)
deriving DecidableEq, Repr

/-- The lines from the start of a byte string, at most `fuel` of them (R58): an invalid opcode or a truncated immediate
ends the listing with the fault it would raise. -/
def disassembleFrom : Nat → List Byte → List Line
  | 0, _ => []
  | fuel + 1, p =>
    match decode p with
    | .ok (i, rest) => .instr i :: disassembleFrom fuel rest
    | .error .noBytes => []
    | .error (.invalidOpcode _) => [.fault .invalidOpcode]
    | .error (.truncated _) => [.fault .truncatedProgram]

/-- Disassembly of a byte string from address 0 (R55, R58); no line is shorter than a byte. -/
def disassemble (p : List Byte) : List Line := disassembleFrom p.length p

/-- The mnemonic, in upper case (R53, R57). -/
def mnemonic : Instr → String
  | .nop => "NOP"
  | .pushb _ => "PUSHB"
  | .pushsw _ => "PUSHSW"
  | .pushw _ => "PUSHW"
  | .pushdw _ => "PUSHDW"
  | .popb => "POPB"
  | .popsw => "POPSW"
  | .popw => "POPW"
  | .popdw => "POPDW"
  | .halt => "HALT"
  | .addb => "ADDB"
  | .addsw => "ADDSW"
  | .addw => "ADDW"
  | .adddw => "ADDDW"
  | .subb => "SUBB"
  | .subsw => "SUBSW"
  | .subw => "SUBW"
  | .subdw => "SUBDW"
  | .mulb => "MULB"
  | .mulsw => "MULSW"
  | .mulw => "MULW"
  | .muldw => "MULDW"
  | .divb => "DIVB"
  | .divsw => "DIVSW"
  | .divw => "DIVW"
  | .divdw => "DIVDW"

/-- The 26 mnemonics in table order, with what each asks for: all the opcode bytes there are (R53). -/
def mnemonicTable : List (List Char × Shape) :=
  (List.range 26).filterMap fun k =>
    match shapeOf (BitVec.ofNat 8 k) with
    | some (.zero i) => some ((mnemonic i).toList, .zero i)
    | some (.push n) => some ((mnemonic (.push n [])).toList, .push n)
    | none => none

/-- A hexadecimal digit's value. -/
def digitValue (c : Char) : Option Nat :=
  if '0' ≤ c ∧ c ≤ '9' then some (c.toNat - '0'.toNat)
  else if 'a' ≤ c ∧ c ≤ 'f' then some (c.toNat - 'a'.toNat + 10)
  else if 'A' ≤ c ∧ c ≤ 'F' then some (c.toNat - 'A'.toNat + 10)
  else none

/-- A numeral in a base, read digit by digit after `acc`. -/
def parseDigits (base : Nat) : Nat → List Char → Option Nat
  | acc, [] => some acc
  | acc, c :: cs =>
    match digitValue c with
    | some d => if d < base then parseDigits base (acc * base + d) cs else none
    | none => none

/-- A decimal or `0x` hexadecimal number, `-` before a negative one (R52, R57). -/
def parseNumber : List Char → Option Int
  | '0' :: 'x' :: c :: cs => (parseDigits 16 0 (c :: cs)).map Int.ofNat
  | '-' :: c :: cs => (parseDigits 10 0 (c :: cs)).map fun v => -(v : Int)
  | c :: cs => (parseDigits 10 0 (c :: cs)).map Int.ofNat
  | [] => none

/-- The text without blanks at either end. -/
def trimBlanks (cs : List Char) : List Char :=
  ((cs.dropWhile Char.isWhitespace).reverse.dropWhile Char.isWhitespace).reverse

/-- The text cut at every `sep`. -/
def cutAt (sep : Char) : List Char → List (List Char)
  | [] => [[]]
  | c :: cs =>
    match cutAt sep cs with
    | [] => [[c]]
    | w :: ws => if c = sep then [] :: w :: ws else (c :: w) :: ws

/-- One element of a byte list: a number `0 .. 255`. -/
def parseByte (cs : List Char) : Option Byte :=
  match parseNumber (trimBlanks cs) with
  | some v => if 0 ≤ v ∧ v < 256 then some (BitVec.ofNat 8 v.toNat) else none
  | none => none

/-- The operand of a PUSH of width `n`: a number, or an explicit list of exactly `N` bytes (R57). -/
def parseOperand (n : Width) (cs : List Char) : Option (List Byte) :=
  match cs with
  | '[' :: inner =>
    match inner.reverse with
    | ']' :: body =>
      match (cutAt ',' body.reverse).mapM parseByte with
      | some bs => if bs.length = n.bytes then some bs else none
      | none => none
    | _ => none
  | _ =>
    match parseNumber cs with
    | some v => immOfInt n v
    | none => none

/-- One line of assembler text (R57): `some none` for a blank line, `none` for text that is no line. -/
def parseLine (cs : List Char) : Option (Option Instr) :=
  let text := trimBlanks (cs.takeWhile (· ≠ ';'))
  if text = [] then some none
  else
    let word := (text.takeWhile fun c => !c.isWhitespace).map Char.toUpper
    let operand := trimBlanks (text.dropWhile fun c => !c.isWhitespace)
    match mnemonicTable.lookup word with
    | some (.zero i) => if operand = [] then some (some i) else none
    | some (.push n) => (parseOperand n operand).map fun imm => some (.push n imm)
    | none => none

/-- A whole program text, one instruction a line (R57). -/
def assembleText (text : String) : Option (List Byte) :=
  ((cutAt '\n' text.toList).mapM parseLine).map fun is => assemble (is.filterMap id)

/-- A number's hexadecimal digits, `k` of them, most significant first. -/
def hexDigits : Nat → Nat → List Char
  | 0, _ => []
  | k + 1, v => hexDigits k (v / 16) ++ [("0123456789ABCDEF".toList).getD (v % 16) '0']

/-- The text of an instruction (R58): its mnemonic, and for a PUSH `le_N` of the immediate in hexadecimal. -/
def instrText (i : Instr) : List Char :=
  if i.imm = [] then (mnemonic i).toList
  else (mnemonic i).toList ++ " 0x".toList ++ hexDigits (2 * i.imm.length) (leNat i.imm)

end Sys2Proof.Machine
end

