-- ==== Sys2Proof/Machine/Flags.lean ====
section
/-! DEFINITION. The hardware has no flags (R20): no instruction records a carry, an overflow, a zero or a sign. What a
step records of itself stands in `STATUS` and `ERR` alone; here are their port encodings (R16, R17; D10). -/

namespace Sys2Proof.Machine

/-- The 2-bit encoding of `STATUS` (R16); 3 is never produced. -/
def Status.code : Status → BitVec 2
  | .running => 0
  | .done => 1
  | .faulted => 2

/-- The cause code of a fault kind (R140), in the document's listing order. -/
def FaultKind.code : FaultKind → BitVec 3
  | .invalidOpcode => 1
  | .stackOverflow => 2
  | .stackUnderflow => 3
  | .divideByZero => 4
  | .truncatedProgram => 5

/-- The 3-bit encoding of `ERR` (R17); 6 and 7 are never produced. -/
def Err.code : Err → BitVec 3
  | .none => 0
  | .fault k => FaultKind.code k

end Sys2Proof.Machine
end

