-- ==== Sys2Proof/Machine/Ports.lean ====
section
/-! DEFINITION. The hardware's registers as bit patterns and its output ports (R11, R12, R173; D13). -/

namespace Sys2Proof.Machine

/-- The `ip` register, `IPW` bits unsigned (R11). -/
def State.ipBits (s : State) : BitVec s.cfg.ipWidth := BitVec.ofNat _ s.ip

/-- The `top_index` register, `TW` bits two's complement (R12). -/
def State.topBits (s : State) : BitVec s.cfg.topWidth := BitVec.ofInt _ s.top

/-- The number of live bytes, `top_index + 1` (R9, R12). -/
def State.depth (s : State) : Nat := (s.top + 1).toNat

/-- The outputs (D13). `progAddr` is the `IPW`-bit address of the opcode fetch, as a number. -/
structure Ports where
  status : BitVec 2
  err : BitVec 3
  result : BitVec 64
  progAddr : Nat
deriving DecidableEq, Repr

/-- What the outputs carry in state `s`; `result` is meaningful only when `STATUS` is `DONE` (R18). -/
def State.ports (s : State) : Ports :=
  { status := s.status.code, err := s.err.code, result := s.result, progAddr := s.ipBits.toNat }

/-- What a host learns of a run (R78, R173). -/
inductive Observation where
  | stillRunning
  | result (v : Word64)
  | failed (k : Err)
deriving DecidableEq, Repr

/-- The observation in state `s`: `RESULT` only when `DONE`, `ERR` only when `FAULTED` (R173). -/
def State.observe (s : State) : Observation :=
  match s.status with
  | .running => .stillRunning
  | .done => .result s.result
  | .faulted => .failed s.err

end Sys2Proof.Machine
end

