-- ==== Sys2Proof/Safety.lean ====
section
/-! DEFINITION. The terms claims are stated in: the invariant every step keeps, and when two states look alike to
every rule of the spec. -/

namespace Sys2Proof.Machine

/-- R14's stack invariant, `-1 <= top_index < C`. -/
structure StackInv (s : State) : Prop where
  neg_one_le : -1 ≤ s.top
  lt_capacity : s.top < s.cfg.capacity

/-- What holds of every state at a step boundary. -/
structure Inv (s : State) : Prop where
  /-- R4: `C >= 1`, `IPW >= 1`. -/
  valid : s.cfg.Valid
  /-- R4: `L <= L_MAX`. -/
  prog_fits : s.prog.length ≤ s.cfg.maxProgLen
  /-- R11: `0 <= ip <= L`. -/
  ip_le : s.ip ≤ s.prog.length
  /-- R14. -/
  stack : StackInv s
  /-- The stack space is in canonical form and lists no address outside `0 .. C-1` (R13). -/
  mem_wf : s.stack.wf
  mem_bound : ∀ c ∈ s.stack, c.1 < s.cfg.capacity
  /-- R17: `ERR` is non-`NONE` exactly when `STATUS` is `FAULTED`. -/
  err_iff : s.err = .none ↔ s.status ≠ .faulted

/-- Two states that agree on everything a rule reads: all but dead stack bytes, and all but `RESULT` unless the run is
`DONE` (R13, R15, R18; U6, U7). -/
structure SameLive (s t : State) : Prop where
  cfg : s.cfg = t.cfg
  prog : s.prog = t.prog
  ip : s.ip = t.ip
  top : s.top = t.top
  live : ∀ a : Nat, (a : Int) ≤ s.top → s.stack.read a = t.stack.read a
  status : s.status = t.status
  err : s.err = t.err
  result : s.status = .done → s.result = t.result

/-- `t` is `s` after a push of the `N` bytes `imm` by a PUSH instruction: they stand above the old top in their order,
no other byte of the stack space changed, and nothing else but `top` and `ip` did (R35, R90). -/
def Appends (s t : State) (n : Width) (imm : List Byte) : Prop :=
  t = { s with ip := s.ip + 1 + n.bytes, top := s.top + n.bytes, stack := t.stack } ∧
  t.stack.readBytes s.pushAddr.toNat n.bytes = imm ∧
  ∀ a : Nat, (a : Int) < s.pushAddr ∨ s.pushAddr + n.bytes ≤ a → t.stack.read a = s.stack.read a

/-- `t` is `s` after an arithmetic instruction of width `N` with the value `v`: `v` stands little-endian where operand B
stood, no other byte of the stack space changed, and nothing else but `top` and `ip` did (R117). -/
def Replaces (s t : State) (n : Width) (v : Nat) : Prop :=
  t = { s with ip := s.ip + 1, top := s.top - n.bytes, stack := t.stack } ∧
  leNat (t.stack.readBytes (s.addrB n).toNat n.bytes) = v ∧
  ∀ a : Nat, (a : Int) < s.addrB n ∨ s.addrB n + n.bytes ≤ a → t.stack.read a = s.stack.read a

end Sys2Proof.Machine
end

