-- ==== Sys2Proof/Certificates/Slice0/Obligations.lean ====
section
/-! DEFINITION. The statements for the provers, from the spec's numbered rules. Premise `Inv s`: every step keeps it
(StepKeepsInvariant) and the state after reset has it (StartSatisfiesInvariant); it rules out states no run reaches. -/

open Sys2Proof Sys2Proof.Machine

/-- The reset values the spec gives; STATUS and ERR rest on the spec's decision D15. Nothing is said of `S` and
`RESULT`, which the spec leaves open (log 1, log 2). The last clause is the model's own choice, not the spec's: that
`State.reset` takes the default parameters (DESIGN CHOICE, log 3) and the empty program (DESIGN CHOICE, log 4). -/
def Obligations.ResetLeavesAnEmptyRunningMachine : Prop :=
    ∀ (c : Config) (p : List Byte),
    (State.start c p).ip = 0 ∧ (State.start c p).top = -1 ∧ (State.start c p).status = .running ∧
    (State.start c p).err = .none ∧ (State.start c p).prog = p ∧ (State.start c p).cfg = c ∧
    State.reset = State.start Config.default []

/-- Reset may be applied in any state and the run in progress leaves no trace (D15). That `S` and `RESULT` are equal
too is the model's choice (log 1, log 2, log 14). -/
def Obligations.ResetForgetsTheRunInProgress : Prop :=
    ∀ (s s' : State) (p : List Byte), s.cfg = s'.cfg →
    s.applyReset p = s'.applyReset p ∧ (s.applyReset p).ip = 0 ∧ (s.applyReset p).top = -1 ∧
    (s.applyReset p).status = .running ∧ (s.applyReset p).err = .none

/-- Inv at the start of every run, not only of the empty one. -/
def Obligations.StartSatisfiesInvariant : Prop :=
    (∀ (c : Config) (p : List Byte), c.Valid → p.length ≤ c.maxProgLen → Inv (State.start c p)) ∧ Inv State.reset

/-- R11, R14 and R17's invariants with the canonical form of memory, inductive over every step. -/
def Obligations.StepKeepsInvariant : Prop :=
    ∀ s t : State, Inv s → step s = .next t → Inv t

/-- R70's dispatch. -/
def Obligations.StepRunsTheDecodedInstruction : Prop :=
    ∀ (s : State) (i : Instr) (rest : List Byte), s.status = .running →
    decode (s.prog.drop s.ip) = .ok (i, rest) → step s = exec i s

/-- R70: the step function is total on RUNNING states. -/
def Obligations.RunningStatesTakeAStep : Prop :=
    ∀ s : State, Inv s → s.status = .running → ∃ t, step s = .next t

/-- R80 (D19). The fault's name is the model's way of saying that no step exists (log 7). -/
def Obligations.StoppedStatesTakeNoStep : Prop :=
    ∀ s : State, s.status ≠ .running → step s = .fault .notRunning

/-- Byte values of R53, which are the spec's decision D1. -/
def Obligations.TableWordsDecode : Prop :=
    decodeTableWord 8 0x00 = some .nop ∧ decodeTableWord 16 0xAB01 = some (.pushb [0xAB]) ∧
    decodeTableWord 24 0x123402 = some (.pushsw [0x34, 0x12]) ∧
    decodeTableWord 40 0x1122334403 = some (.pushw [0x44, 0x33, 0x22, 0x11]) ∧
    decodeTableWord 72 0x112233445566778804 = some (.pushdw [0x88, 0x77, 0x66, 0x55, 0x44, 0x33, 0x22, 0x11]) ∧
    decodeTableWord 8 0x05 = some .popb ∧ decodeTableWord 8 0x09 = some .halt ∧
    decodeTableWord 8 0x0C = some .addw ∧ decodeTableWord 8 0x11 = some .subdw ∧
    decodeTableWord 8 0x13 = some .mulsw ∧ decodeTableWord 8 0x19 = some .divdw ∧ decodeTableWord 8 0x1A = none

/-- No bit of an encoding is dropped, and no byte after an instruction is taken. -/
def Obligations.DecodeEncodeRoundTrip : Prop :=
    ∀ (i : Instr) (rest : List Byte), i.WellFormed → decode (encode i ++ rest) = .ok (i, rest)

/-- The other direction of the round trip (R55's unique decoding of one instruction). -/
def Obligations.DecodeAcceptsOnlyEncodings : Prop :=
    ∀ (p : List Byte) (i : Instr) (rest : List Byte), decode p = .ok (i, rest) → i.WellFormed ∧ p = encode i ++ rest

/-- R55's unique forward decoding of a whole program; disassembly itself is the spec's convention D2. -/
def Obligations.DisassemblyInvertsAssembly : Prop :=
    ∀ is : List Instr, (∀ i ∈ is, i.WellFormed) → disassemble (assemble is) = is.map Line.instr

/-- R50. -/
def Obligations.InstructionLengths : Prop :=
    (∀ i : Instr, i.WellFormed → (encode i).head? = some (opcode i) ∧ (encode i).tail = i.imm ∧
      i.imm.length = i.immWidth ∧ (encode i).length ∈ [1, 2, 3, 5, 9]) ∧
    (∀ (n : Width) (imm : List Byte), (Instr.push n imm).immWidth = n.bytes) ∧
    (∀ i : Instr, (∀ n imm, i ≠ .push n imm) → i.immWidth = 0 ∧ i.imm = []) ∧
    (∀ i j : Instr, opcode i = opcode j → i.immWidth = j.immWidth) ∧
    (∀ (s t : State) (i : Instr) (rest : List Byte), s.status = .running →
      decode (s.prog.drop s.ip) = .ok (i, rest) →
      rest = s.prog.drop (s.ip + 1 + i.immWidth) ∧
      (step s = .next t → t.status = .running → t.ip = s.ip + 1 + i.immWidth))

/-- R54; the interval is that of the spec's numbering D1. -/
def Obligations.InvalidOpcodeBytes : Prop :=
    ∀ (op : Byte) (rest : List Byte),
    (decode (op :: rest) = .error (.invalidOpcode op) ↔ ∀ i : Instr, opcode i ≠ op) ∧
    ((∀ i : Instr, opcode i ≠ op) ↔ 0x1A ≤ op.toNat) ∧
    (op.toNat < 0x1A → (∃ i r, decode (op :: rest) = .ok (i, r)) ∨ ∃ n, decode (op :: rest) = .error (.truncated n))

/-- R72, with its frame. -/
def Obligations.NopAdvancesIp : Prop :=
    encode .nop = [0x00] ∧ ∀ s : State, exec .nop s = .next { s with ip := s.ip + 1 }

/-- R73, which is the spec's decision D3. -/
def Obligations.HaltAdvancesIp : Prop :=
    encode .halt = [0x09] ∧ ∀ s : State, exec .halt s = .next { s with ip := s.ip + 1 }

/-- The effect of pushb, pushsw, pushw, pushdw and its frame (R90). -/
def Obligations.PushCompletes : Prop :=
    ∀ (n : Width) (imm : List Byte) (s : State), Inv s → imm.length = n.bytes →
    s.ip + n.bytes < s.prog.length → s.top + n.bytes < s.cfg.capacity →
    ∃ t, exec (.push n imm) s = .next t ∧ Appends s t n imm

/-- R146's order for PUSH is the spec's decision D11. -/
def Obligations.PushTrapsInOrder : Prop :=
    ∀ (n : Width) (imm : List Byte) (s : State), imm.length = n.bytes →
    (s.prog.length ≤ s.ip + n.bytes →
      exec (.push n imm) s = .next { s with err := .fault .truncatedProgram, status := .faulted }) ∧
    (s.ip + n.bytes < s.prog.length → (s.cfg.capacity : Int) ≤ s.top + n.bytes →
      exec (.push n imm) s = .next { s with err := .fault .stackOverflow, status := .faulted })

/-- R91 to R94 at the level of a step, for the four widths. -/
def Obligations.PushStepTakesBytesFromProgram : Prop :=
    opcode (.pushb []) = 0x01 ∧ opcode (.pushsw []) = 0x02 ∧ opcode (.pushw []) = 0x03 ∧ opcode (.pushdw []) = 0x04 ∧
    ∀ (n : Width) (s : State), Inv s → s.status = .running → s.prog[s.ip]? = some (opcode (.push n [])) →
    (s.prog.length ≤ s.ip + n.bytes →
      step s = .next { s with err := .fault .truncatedProgram, status := .faulted }) ∧
    (s.ip + n.bytes < s.prog.length → (s.cfg.capacity : Int) ≤ s.top + n.bytes →
      step s = .next { s with err := .fault .stackOverflow, status := .faulted }) ∧
    (s.ip + n.bytes < s.prog.length → s.top + n.bytes < s.cfg.capacity →
      ∃ t, step s = .next t ∧ Appends s t n ((s.prog.drop (s.ip + 1)).take n.bytes))

/-- R33 and R52: the bytes are neither extended nor reordered. -/
def Obligations.ImmediateIsProgRead : Prop :=
    (∀ (s : State) (n : Width) (imm rest : List Byte), s.fetch = .ok (.push n imm, rest) →
      s.progRead (s.ip + 1) n.bytes = some imm ∧ s.ip + n.bytes < s.prog.length) ∧
    ∀ (s : State) (a n k : Nat) (b : List Byte), s.progRead a n = some b → k < n → b[k]? = s.prog[a + k]?

/-- R95 to R98 for the four widths; the popped bytes are not cleared. -/
def Obligations.PopLowersTop : Prop :=
    encode .popb = [0x05] ∧ encode .popsw = [0x06] ∧ encode .popw = [0x07] ∧ encode .popdw = [0x08] ∧
    ∀ (n : Width) (s : State), Inv s →
    (s.top + 1 < n.bytes → exec (.pop n) s = .next { s with err := .fault .stackUnderflow, status := .faulted }) ∧
    ((n.bytes : Int) ≤ s.top + 1 →
      exec (.pop n) s = .next { s with top := s.top - n.bytes, ip := s.ip + 1 })

/-- R114 with the byte order of R38, the spec's decision D4. -/
def Obligations.OperandsAreLittleEndian : Prop :=
    ∀ (n : Width) (s : State), 2 * (n.bytes : Int) ≤ s.top + 1 →
    s.operandA n = ∑ k ∈ Finset.range n.bytes, 256 ^ k * (s.stack.read (s.top - n.bytes + 1 + k).toNat).toNat ∧
    s.operandB n = ∑ k ∈ Finset.range n.bytes, 256 ^ k * (s.stack.read (s.top - 2 * n.bytes + 1 + k).toNat).toNat

/-- R120 to R123, with the frame of R117. -/
def Obligations.AddPushesTheSum : Prop :=
    encode .addb = [0x0A] ∧ encode .addsw = [0x0B] ∧ encode .addw = [0x0C] ∧ encode .adddw = [0x0D] ∧
    ∀ (n : Width) (s : State), Inv s →
    (s.top + 1 < 2 * n.bytes →
      exec (.arith .add n) s = .next { s with err := .fault .stackUnderflow, status := .faulted }) ∧
    (2 * (n.bytes : Int) ≤ s.top + 1 →
      ∃ t, exec (.arith .add n) s = .next t ∧ Replaces s t n ((s.operandA n + s.operandB n) % 2 ^ (8 * n.bytes)))

/-- R124 to R127, with the frame of R117. -/
def Obligations.SubPushesTheDifference : Prop :=
    encode .subb = [0x0E] ∧ encode .subsw = [0x0F] ∧ encode .subw = [0x10] ∧ encode .subdw = [0x11] ∧
    ∀ (n : Width) (s : State), Inv s →
    (s.top + 1 < 2 * n.bytes →
      exec (.arith .sub n) s = .next { s with err := .fault .stackUnderflow, status := .faulted }) ∧
    (2 * (n.bytes : Int) ≤ s.top + 1 →
      ∃ t, exec (.arith .sub n) s = .next t ∧
        Replaces s t n (((s.operandA n : Int) - s.operandB n) % 2 ^ (8 * n.bytes)).toNat)

/-- R128 to R131, with the frame of R117. -/
def Obligations.MulPushesTheProduct : Prop :=
    encode .mulb = [0x12] ∧ encode .mulsw = [0x13] ∧ encode .mulw = [0x14] ∧ encode .muldw = [0x15] ∧
    ∀ (n : Width) (s : State), Inv s →
    (s.top + 1 < 2 * n.bytes →
      exec (.arith .mul n) s = .next { s with err := .fault .stackUnderflow, status := .faulted }) ∧
    (2 * (n.bytes : Int) ≤ s.top + 1 →
      ∃ t, exec (.arith .mul n) s = .next t ∧ Replaces s t n ((s.operandA n * s.operandB n) % 2 ^ (8 * n.bytes)))

/-- R132 to R134, with the frame of R117. -/
def Obligations.DivNarrowPushesTheQuotient : Prop :=
    encode .divb = [0x16] ∧ encode .divsw = [0x17] ∧ encode .divw = [0x18] ∧
    ∀ (n : Width) (s : State), Inv s → n ≠ .dw →
    (s.top + 1 < 2 * n.bytes →
      exec (.arith .div n) s = .next { s with err := .fault .stackUnderflow, status := .faulted }) ∧
    (2 * (n.bytes : Int) ≤ s.top + 1 → s.operandB n = 0 →
      exec (.arith .div n) s = .next { s with err := .fault .divideByZero, status := .faulted }) ∧
    (2 * (n.bytes : Int) ≤ s.top + 1 → s.operandB n ≠ 0 →
      ∃ t, exec (.arith .div n) s = .next t ∧ Replaces s t n (s.operandA n / s.operandB n))

/-- R135, which rests on the spec's decisions D5 (signed at width 8), D6 (overflow) and G1 (two's complement). -/
def Obligations.DivDwPushesTheSignedQuotient : Prop :=
    encode .divdw = [0x19] ∧ ∀ s : State, Inv s →
    (s.top + 1 < 16 → exec .divdw s = .next { s with err := .fault .stackUnderflow, status := .faulted }) ∧
    (16 ≤ s.top + 1 → s.operandB .dw = 0 →
      exec .divdw s = .next { s with err := .fault .divideByZero, status := .faulted }) ∧
    (16 ≤ s.top + 1 → s.operandB .dw ≠ 0 →
      ∃ t, exec .divdw s = .next t ∧ Replaces s t .dw
        ((Int.tdiv (BitVec.ofNat 64 (s.operandA .dw)).toInt (BitVec.ofNat 64 (s.operandB .dw)).toInt) % 2 ^ 64).toNat)

/-- R115's list (D5, D6). -/
def Obligations.SignedDivisionCases : Prop :=
    alu .div 7 2 = 3 ∧ alu .div (-7) 2 = -3 ∧ alu .div 7 (-2) = -3 ∧ alu .div (-7) (-2) = 3 ∧
    alu .div 0x8000000000000000 0xFFFFFFFFFFFFFFFF = 0x8000000000000000 ∧
    alu .div 0x8000000000000000 2 = 0xC000000000000000

/-- R110: the folded block against the procedure of the document. -/
def Obligations.ArithIsPopPopPush : Prop :=
    ∀ (o : ArithOp) (n : Width) (s t : State), Inv s →
    (s.arith o n = .ok t ↔ ∃ a b s1 s2, s.pop n = .ok (a, s1) ∧ s1.pop n = .ok (b, s2) ∧
      ¬(o = .div ∧ leNat b = 0) ∧
      s2.push n (leBytes n.bytes (truncN n.bytes (alu o (zext64 (leNat a)) (zext64 (leNat b))))) = .ok t) ∧
    (s.arith o n = .error (.raise .stackUnderflow) ↔ s.pop n = .error (.raise .stackUnderflow) ∨
      ∃ a s1, s.pop n = .ok (a, s1) ∧ s1.pop n = .error (.raise .stackUnderflow))

/-- R136. -/
def Obligations.SwappedOperands : Prop :=
    ∀ (n : Width) (s s' : State), Inv s → Inv s' → 2 * (n.bytes : Int) ≤ s.top + 1 → s'.top = s.top →
    s'.operandA n = s.operandB n → s'.operandB n = s.operandA n →
    (∀ o, o = .add ∨ o = .mul → ∃ t t', exec (.arith o n) s = .next t ∧ exec (.arith o n) s' = .next t' ∧
      t.operandA n = t'.operandA n) ∧
    (∃ t t', exec (.arith .sub n) s = .next t ∧ exec (.arith .sub n) s' = .next t' ∧
      (t.operandA n : Int) = ((s.operandA n : Int) - s.operandB n) % 2 ^ (8 * n.bytes) ∧
      (t.operandA n + t'.operandA n) % 2 ^ (8 * n.bytes) = 0) ∧
    (s.operandB n = 0 → s.operandA n ≠ 0 →
      exec (.arith .div n) s = .next { s with err := .fault .divideByZero, status := .faulted } ∧
      ∃ t', exec (.arith .div n) s' = .next t' ∧ t'.operandA n = 0)

/-- R99. -/
def Obligations.PushThenPopRoundTrip : Prop :=
    ∀ (n : Width) (b : List Byte) (s : State), Inv s → b.length = n.bytes → s.top + n.bytes < s.cfg.capacity →
    (∃ s1 s2, s.push n b = .ok s1 ∧ s1.pop n = .ok (b, s2) ∧ s2.top = s.top ∧
      ∀ a : Nat, (a : Int) ≤ s.top → s2.stack.read a = s.stack.read a) ∧
    (s.ip + n.bytes < s.prog.length → ∃ t1 t2, exec (.push n b) s = .next t1 ∧ exec (.pop n) t1 = .next t2 ∧
      t2.top = s.top ∧ t2.ip = s.ip + n.bytes + 2 ∧
      ∀ a : Nat, (a : Int) ≤ s.top → t2.stack.read a = s.stack.read a)

/-- R40 and R100; the numeric reading rests on D4. -/
def Obligations.NarrowPopTakesTheHighBytes : Prop :=
    ∀ (n m : Width) (v : Nat) (s s1 : State), Inv s → m.bytes ≤ n.bytes → s.push n (leBytes n.bytes v) = .ok s1 →
    ∃ b s2, s1.pop m = .ok (b, s2) ∧ s2.top = s.top + n.bytes - m.bytes ∧
      leNat b = v % 2 ^ (8 * n.bytes) / 2 ^ (8 * (n.bytes - m.bytes))

/-- R141; the byte is a byte at `ip`, so no immediate byte raises it. -/
def Obligations.InvalidOpcodeExactlyWhen : Prop :=
    ∀ s : State, Inv s → s.status = .running →
    (s.ip < s.prog.length → (∀ i : Instr, s.prog[s.ip]? ≠ some (opcode i)) →
      step s = .next { s with err := .fault .invalidOpcode, status := .faulted }) ∧
    ∀ t, step s = .next t → t.err = .fault .invalidOpcode →
      s.ip < s.prog.length ∧ ∀ i : Instr, s.prog[s.ip]? ≠ some (opcode i)

/-- R145. -/
def Obligations.TruncatedProgramExactlyWhen : Prop :=
    ∀ s : State, Inv s → s.status = .running →
    (∀ n : Width, s.prog[s.ip]? = some (opcode (.push n [])) → s.prog.length ≤ s.ip + n.bytes →
      step s = .next { s with err := .fault .truncatedProgram, status := .faulted }) ∧
    ∀ t, step s = .next t → t.err = .fault .truncatedProgram →
      s.ip < s.prog.length ∧
      ∃ n : Width, s.prog[s.ip]? = some (opcode (.push n [])) ∧ s.prog.length ≤ s.ip + n.bytes

/-- R142; that the truncation check comes first is D11. -/
def Obligations.StackOverflowExactlyWhen : Prop :=
    ∀ s : State, Inv s → s.status = .running →
    (∀ n : Width, s.prog[s.ip]? = some (opcode (.push n [])) → s.ip + n.bytes < s.prog.length →
      (s.cfg.capacity : Int) ≤ s.top + n.bytes →
      step s = .next { s with err := .fault .stackOverflow, status := .faulted }) ∧
    ∀ t, step s = .next t → t.err = .fault .stackOverflow →
      ∃ n : Width, s.prog[s.ip]? = some (opcode (.push n [])) ∧ s.ip + n.bytes < s.prog.length ∧
        (s.cfg.capacity : Int) ≤ s.top + n.bytes

/-- R143. -/
def Obligations.StackUnderflowExactlyWhen : Prop :=
    ∀ s : State, Inv s → s.status = .running →
    ((s.prog.length ≤ s.ip ∧ s.top + 1 < 8 ∨
      (∃ n : Width, s.prog[s.ip]? = some (opcode (.pop n)) ∧ s.top + 1 < n.bytes) ∨
      ∃ (o : ArithOp) (n : Width), s.prog[s.ip]? = some (opcode (.arith o n)) ∧ s.top + 1 < 2 * n.bytes) →
      step s = .next { s with err := .fault .stackUnderflow, status := .faulted }) ∧
    ∀ t, step s = .next t → t.err = .fault .stackUnderflow →
      s.prog.length ≤ s.ip ∧ s.top + 1 < 8 ∨
      (∃ n : Width, s.prog[s.ip]? = some (opcode (.pop n)) ∧ s.top + 1 < n.bytes) ∨
      ∃ (o : ArithOp) (n : Width), s.prog[s.ip]? = some (opcode (.arith o n)) ∧ s.top + 1 < 2 * n.bytes

/-- R144. -/
def Obligations.DivideByZeroExactlyWhen : Prop :=
    ∀ s : State, Inv s → s.status = .running →
    (∀ n : Width, s.prog[s.ip]? = some (opcode (.arith .div n)) → 2 * (n.bytes : Int) ≤ s.top + 1 →
      s.operandB n = 0 → step s = .next { s with err := .fault .divideByZero, status := .faulted }) ∧
    (∀ t, step s = .next t → t.err = .fault .divideByZero →
      ∃ n : Width, s.prog[s.ip]? = some (opcode (.arith .div n)) ∧ 2 * (n.bytes : Int) ≤ s.top + 1 ∧
        s.operandB n = 0) ∧
    (∀ n : Width, s.prog[s.ip]? = some (opcode (.arith .div n)) → 2 * (n.bytes : Int) ≤ s.top + 1 →
      s.operandA n = 0 → s.operandB n ≠ 0 → ∃ t, step s = .next t ∧ t.status = .running)

/-- R147, over every instruction and the final extraction. -/
def Obligations.FaultEntryChangesOnlyErrAndStatus : Prop :=
    ∀ s t : State, s.status = .running → step s = .next t → t.status = .faulted →
    (∃ k : FaultKind, t = { s with err := .fault k, status := .faulted } ∧
      t.err.code = FaultKind.code k ∧ 1 ≤ (FaultKind.code k).toNat ∧ (FaultKind.code k).toNat ≤ 5) ∧ ∀ u, step t ≠ .next u

/-- R71, which rests on the spec's decisions D12 and D4. -/
def Obligations.FinalExtractionReportsTheTopEightBytes : Prop :=
    ∀ s : State, Inv s → s.status = .running → s.prog.length ≤ s.ip →
    (s.top + 1 < 8 → step s = .next { s with err := .fault .stackUnderflow, status := .faulted }) ∧
    (8 ≤ s.top + 1 → step s = .next { s with
      top := s.top - 8, status := .done,
      result := BitVec.ofNat 64 (leNat (s.stack.readBytes (s.top - 7).toNat 8)) })

/-- R16, R18, R78. -/
def Obligations.RunEndsOnlyWhereTheSpecSays : Prop :=
    ∀ s t : State, Inv s → s.status = .running → step s = .next t →
    (t.status = .done ↔ s.prog.length ≤ s.ip ∧ 8 ≤ s.top + 1) ∧ (t.result ≠ s.result → t.status = .done) ∧
    (t.status = .done → t.observe = .result t.result ∧ t.err = .none) ∧
    (t.status = .faulted → ∃ k, t.observe = .failed (.fault k) ∧ t.result = s.result)

/-- R30 to R32, R48: nothing writes the program space. -/
def Obligations.ProgramAndParametersNeverChange : Prop :=
    ∀ s t : State, step s = .next t → t.prog = s.prog ∧ t.cfg = s.cfg

/-- R13: only a push writes S, and only bytes that become live by it. -/
def Obligations.OnlyLiveBytesAreWritten : Prop :=
    ∀ (s t : State) (a : Nat), Inv s → step s = .next t → t.stack.read a ≠ s.stack.read a →
    (a : Int) ≤ t.top ∧ a < s.cfg.capacity ∧ s.top - 15 ≤ a ∧ t.status = .running

/-- R75, R76, R11. -/
def Obligations.IpStrictlyIncreases : Prop :=
    ∀ s t : State, Inv s → s.status = .running → step s = .next t →
    (t.status = .running → s.ip < t.ip ∧ t.ip ≤ s.prog.length ∧
      ∃ i rest, s.fetch = .ok (i, rest) ∧ t.ip = s.ip + 1 + i.immWidth) ∧
    (t.status ≠ .running → t.ip = s.ip)

/-- R176, from every state and not only from reset. -/
def Obligations.EveryRunEnds : Prop :=
    (∀ s : State, Inv s → s.status = .running → ∃ k t, k ≤ s.prog.length - s.ip + 1 ∧
      Host.Core.run Sys2Proof.core k s = .next t ∧ t.status ≠ .running) ∧
    ∀ (c : Config) (p : List Byte), c.Valid → p.length ≤ c.maxProgLen → ∃ k t, k ≤ p.length + 1 ∧
      Host.Core.run Sys2Proof.core k (State.start c p) = .next t ∧ t.status ≠ .running

/-- R15, R18: the model's reset values for `S` and `RESULT` (log 1, log 2) reach no rule. -/
def Obligations.DeadBytesAndStaleResultAreNeverRead : Prop :=
    ∀ s t : State, Inv s → Inv t → SameLive s t →
    (∀ s', step s = .next s' → ∃ t', step t = .next t' ∧ SameLive s' t' ∧ s'.observe = t'.observe) ∧
    (∀ f, step s = .fault f ↔ step t = .fault f)

/-- R79 (D18). -/
def Obligations.PeekDebugFollowsTheStack : Prop :=
    ∀ s : State, Inv s → s.peekDebug.length = (s.top + 1).toNat ∧
    (∀ k : Nat, (k : Int) ≤ s.top → s.peekDebug[k]? = some (s.stack.read (s.top - k).toNat)) ∧
    (∀ (n : Width) (imm : List Byte) (t : State), imm.length = n.bytes → exec (.push n imm) s = .next t →
      t.err ≠ .fault .truncatedProgram → t.err ≠ .fault .stackOverflow → t.peekDebug = imm.reverse ++ s.peekDebug) ∧
    (∀ (n : Width) (t : State), exec (.pop n) s = .next t → t.err ≠ .fault .stackUnderflow →
      t.peekDebug = s.peekDebug.drop n.bytes)

/-- R11, R12; the widths are the spec's decisions D16 and D8, and unbounded numbers are exact (log 11). -/
def Obligations.RegistersFitTheirWidths : Prop :=
    (∀ s : State, Inv s → s.ipBits.toNat = s.ip ∧ s.topBits.toInt = s.top) ∧
    ∀ c : Config, c.Valid → c.capacity ≤ 2 ^ (c.topWidth - 1) ∧ 1 ≤ c.topWidth ∧
      ∀ w, 1 ≤ w → c.capacity ≤ 2 ^ (w - 1) → c.topWidth ≤ w

/-- R16, R17: the encodings are the spec's decision D10, and the ports that carry them its decision D13. That the result
port shows `RESULT` raw in every state is the model's own choice (DESIGN CHOICE, log 21): before `DONE` the value is
unspecified (R18, U6). -/
def Obligations.StatusAndErrorCodes : Prop :=
    Status.code .running = 0 ∧ Status.code .done = 1 ∧ Status.code .faulted = 2 ∧ Err.code .none = 0 ∧
    Err.code (.fault .invalidOpcode) = 1 ∧ Err.code (.fault .stackOverflow) = 2 ∧
    Err.code (.fault .stackUnderflow) = 3 ∧ Err.code (.fault .divideByZero) = 4 ∧
    Err.code (.fault .truncatedProgram) = 5 ∧
    ∀ s : State, s.ports.status = s.status.code ∧ s.ports.err = s.err.code ∧ s.ports.result = s.result

/-- R52; negative numbers are the spec's decision D2. That numbers outside the range do not assemble is the model's own
choice (DESIGN CHOICE, log 17): R52 says nothing of them. -/
def Obligations.ImmediateNumbersAssemble : Prop :=
    ∀ (n : Width) (v : Int),
    (0 ≤ v → v < 2 ^ (8 * n.bytes) → ∃ b, immOfInt n v = some b ∧ b.length = n.bytes ∧ (leNat b : Int) = v) ∧
    (v < 0 → -(2 ^ (8 * n.bytes - 1)) ≤ v →
      ∃ b, immOfInt n v = some b ∧ b.length = n.bytes ∧ (leNat b : Int) = v + 2 ^ (8 * n.bytes)) ∧
    (v < -(2 ^ (8 * n.bytes - 1)) ∨ 2 ^ (8 * n.bytes) ≤ v → immOfInt n v = none)

/-- The model's choice (log 9): such a term is no instruction of the hardware. -/
def Obligations.IllFormedTermsAreRefused : Prop :=
    ∀ (i : Instr) (s : State), ¬ i.WellFormed → exec i s = .refused .illFormedImmediate

/-- The host's interface, in the model's own terms (log 20). -/
def Obligations.FetchWordRunsNext : Prop :=
    ∀ (s : State) (nbits w : Nat) (i : Instr), decodeTableWord nbits w = some i →
    step (s.withFetchWord nbits w) = exec i (s.withFetchWord nbits w) ∧
    s.withFetchWord nbits w = { s with prog := (s.withFetchWord nbits w).prog, status := .running }
end

