-- ==== Sys2Proof/Laws/Bytes.lean ====
section
/-! SUPPORT. The numeric readings of R6 and what the four operators give (R112 to R115). -/

namespace Sys2Proof

theorem Width.bytes_pos (n : Width) : 0 < n.bytes := by cases n <;> decide

theorem Width.bytes_le (n : Width) : n.bytes ≤ 8 := by cases n <;> decide

end Sys2Proof

namespace Sys2Proof.Machine

@[simp] theorem leBytes_length (n v : Nat) : (leBytes n v).length = n := by
  induction n generalizing v with
  | zero => rfl
  | succ n ih => simp [leBytes, ih]

theorem leNat_lt (bs : List Byte) : leNat bs < 2 ^ (8 * bs.length) := by
  induction bs with
  | nil => simp [leNat]
  | cons b bs ih =>
    have hb := b.isLt
    rw [leNat, List.length_cons, Nat.mul_add, Nat.pow_add]
    omega

/-- `le_N(bytes_N(v)) = v` for `v` of `N` bytes (R6). -/
theorem leNat_leBytes (n v : Nat) : leNat (leBytes n v) = v % 2 ^ (8 * n) := by
  induction n generalizing v with
  | zero => simp [leBytes, leNat, Nat.mod_one]
  | succ n ih =>
    rw [leBytes, leNat, ih, Nat.mul_add, Nat.pow_add, Nat.mul_comm (2 ^ (8 * n)), Nat.mod_mul]
    simp

/-- `bytes_N(le_N(b)) = b` (R6). -/
theorem leBytes_leNat (bs : List Byte) : leBytes bs.length (leNat bs) = bs := by
  induction bs with
  | nil => rfl
  | cons b bs ih =>
    have hb := b.isLt
    have h1 : BitVec.ofNat 8 (leNat (b :: bs)) = b := by
      apply BitVec.eq_of_toNat_eq
      simp only [leNat, BitVec.toNat_ofNat]
      omega
    have h2 : leNat (b :: bs) / 256 = leNat bs := by
      simp only [leNat]
      omega
    rw [List.length_cons, leBytes, h1, h2, ih]

theorem zext64_toNat (v : Nat) : (zext64 v).toNat = v % 2 ^ 64 := by simp [zext64]

/-- A narrow operand keeps its value when it is zero-extended (R111). -/
theorem zext64_leNat (bs : List Byte) (h : bs.length ≤ 8) : (zext64 (leNat bs)).toNat = leNat bs := by
  rw [zext64_toNat, Nat.mod_eq_of_lt]
  exact Nat.lt_of_lt_of_le (leNat_lt bs) (Nat.pow_le_pow_right (by decide) (by omega))

theorem signed64_eq_toInt (v : Word64) : signed64 v = v.toInt := by
  have := v.isLt
  unfold signed64
  rw [BitVec.toInt_eq_toNat_cond]
  split <;> split <;> omega

theorem wrap64_toNat (i : Int) : ((wrap64 i).toNat : Int) = i % 2 ^ 64 := by
  have h1 : 0 ≤ i % 2 ^ 64 := Int.emod_nonneg _ (by decide)
  have h2 : i % 2 ^ 64 < 2 ^ 64 := Int.emod_lt_of_pos _ (by decide)
  simp only [wrap64, BitVec.toNat_ofNat]
  omega

theorem wrap64_eq_ofInt (i : Int) : wrap64 i = BitVec.ofInt 64 i := by
  apply BitVec.eq_of_toNat_eq
  have := wrap64_toNat i
  rw [BitVec.toNat_ofInt]
  omega

/-- The spec's quotient is the integers' division truncated toward zero. -/
theorem tdiv_eq (a b : Int) : tdiv a b = a.tdiv b := by
  unfold tdiv
  rcases Int.eq_nat_or_neg a with ⟨m, rfl | rfl⟩ <;> rcases Int.eq_nat_or_neg b with ⟨k, rfl | rfl⟩ <;>
    rcases m.eq_zero_or_pos with rfl | hm <;> rcases k.eq_zero_or_pos with rfl | hk <;>
    simp_all [Int.tdiv_neg, Int.neg_tdiv, Int.sign_natCast_of_ne_zero, Nat.pos_iff_ne_zero]

theorem alu_add (a b : Word64) : alu .add a b = a + b := by
  apply BitVec.eq_of_toNat_eq
  have := wrap64_toNat ((a.toNat : Int) + b.toNat)
  rw [alu, BitVec.toNat_add]
  omega

theorem alu_sub (a b : Word64) : alu .sub a b = a - b := by
  apply BitVec.eq_of_toNat_eq
  have := wrap64_toNat ((a.toNat : Int) - b.toNat)
  have := a.isLt
  have := b.isLt
  rw [alu, BitVec.toNat_sub]
  omega

theorem alu_mul (a b : Word64) : alu .mul a b = a * b := by
  apply BitVec.eq_of_toNat_eq
  have := wrap64_toNat ((a.toNat : Int) * b.toNat)
  rw [alu, BitVec.toNat_mul]
  push_cast at *
  omega

theorem alu_div (a b : Word64) : alu .div a b = BitVec.ofInt 64 (a.toInt.tdiv b.toInt) := by
  rw [alu, wrap64_eq_ofInt, tdiv_eq, signed64_eq_toInt, signed64_eq_toInt]

end Sys2Proof.Machine
end

