-- ==== Sys2Proof/Laws/PerInstr.lean ====
section
/-! SUPPORT. Statements for all instructions, one lemma per constructor. -/

namespace Sys2Proof.Laws

/-- What the opcode of an instruction asks for (R51). -/
def shape : Instr → Shape
  | .pushb _ => .push .b
  | .pushsw _ => .push .sw
  | .pushw _ => .push .w
  | .pushdw _ => .push .dw
  | .nop => .zero .nop
  | .popb => .zero .popb
  | .popsw => .zero .popsw
  | .popw => .zero .popw
  | .popdw => .zero .popdw
  | .halt => .zero .halt
  | .addb => .zero .addb
  | .addsw => .zero .addsw
  | .addw => .zero .addw
  | .adddw => .zero .adddw
  | .subb => .zero .subb
  | .subsw => .zero .subsw
  | .subw => .zero .subw
  | .subdw => .zero .subdw
  | .mulb => .zero .mulb
  | .mulsw => .zero .mulsw
  | .mulw => .zero .mulw
  | .muldw => .zero .muldw
  | .divb => .zero .divb
  | .divsw => .zero .divsw
  | .divw => .zero .divw
  | .divdw => .zero .divdw

/-- The opcode map read from an instruction's own opcode byte gives that instruction's row of R53. -/
def OpcodeRow.Statement (i : Instr) : Prop := shapeOf (opcode i) = some (shape i)

theorem OpcodeRow.nop : OpcodeRow.Statement .nop := rfl
theorem OpcodeRow.pushb (imm : List Byte) : OpcodeRow.Statement (.pushb imm) := rfl
theorem OpcodeRow.pushsw (imm : List Byte) : OpcodeRow.Statement (.pushsw imm) := rfl
theorem OpcodeRow.pushw (imm : List Byte) : OpcodeRow.Statement (.pushw imm) := rfl
theorem OpcodeRow.pushdw (imm : List Byte) : OpcodeRow.Statement (.pushdw imm) := rfl
theorem OpcodeRow.popb : OpcodeRow.Statement .popb := rfl
theorem OpcodeRow.popsw : OpcodeRow.Statement .popsw := rfl
theorem OpcodeRow.popw : OpcodeRow.Statement .popw := rfl
theorem OpcodeRow.popdw : OpcodeRow.Statement .popdw := rfl
theorem OpcodeRow.halt : OpcodeRow.Statement .halt := rfl
theorem OpcodeRow.addb : OpcodeRow.Statement .addb := rfl
theorem OpcodeRow.addsw : OpcodeRow.Statement .addsw := rfl
theorem OpcodeRow.addw : OpcodeRow.Statement .addw := rfl
theorem OpcodeRow.adddw : OpcodeRow.Statement .adddw := rfl
theorem OpcodeRow.subb : OpcodeRow.Statement .subb := rfl
theorem OpcodeRow.subsw : OpcodeRow.Statement .subsw := rfl
theorem OpcodeRow.subw : OpcodeRow.Statement .subw := rfl
theorem OpcodeRow.subdw : OpcodeRow.Statement .subdw := rfl
theorem OpcodeRow.mulb : OpcodeRow.Statement .mulb := rfl
theorem OpcodeRow.mulsw : OpcodeRow.Statement .mulsw := rfl
theorem OpcodeRow.mulw : OpcodeRow.Statement .mulw := rfl
theorem OpcodeRow.muldw : OpcodeRow.Statement .muldw := rfl
theorem OpcodeRow.divb : OpcodeRow.Statement .divb := rfl
theorem OpcodeRow.divsw : OpcodeRow.Statement .divsw := rfl
theorem OpcodeRow.divw : OpcodeRow.Statement .divw := rfl
theorem OpcodeRow.divdw : OpcodeRow.Statement .divdw := rfl

end Sys2Proof.Laws
end

