-- ==== Sys2Proof/Laws/Decode.lean ====
section
/-! SUPPORT. The decoder's small lemmas: what it answers on a byte string with an opcode at its start, and how the
shapes of the two opcode maps fit. -/

namespace Sys2Proof

theorem decode_ne_noBytes (op : Byte) (rest : List Byte) : decode (op :: rest) ≠ .error .noBytes := by
  simp only [decode]
  split
  · simp
  · simp
  · split <;> simp

theorem decode_invalid {op : Byte} (h : shapeOf op = none) (rest : List Byte) :
    decode (op :: rest) = .error (.invalidOpcode op) := by
  simp only [decode, h]

theorem decode_zero {op : Byte} {i : Instr} (h : shapeOf op = some (.zero i)) (rest : List Byte) :
    decode (op :: rest) = .ok (i, rest) := by
  simp only [decode, h]

theorem decode_push {op : Byte} {n : Width} (h : shapeOf op = some (.push n)) (rest : List Byte) :
    decode (op :: rest) = if rest.length < n.bytes then .error (.truncated n)
      else .ok (.push n (rest.take n.bytes), rest.drop n.bytes) := by
  simp only [decode, h]

/-- The opcode byte of every instruction selects its row (R53). -/
theorem shapeOf_opcode (i : Instr) : shapeOf (opcode i) = some (Laws.shape i) := by
  cases i <;> rfl

/-- A byte that selects a row of R53 is that row's opcode byte. -/
theorem shapeOf_some {op : Byte} {sh : Shape} (h : shapeOf op = some sh) :
    (∃ i, sh = .zero i ∧ op = opcode i ∧ i.imm = [] ∧ i.immWidth = 0) ∨
    (∃ n, sh = .push n ∧ ∀ imm, op = opcode (.push n imm)) := by
  unfold shapeOf at h
  split at h <;> rename_i he <;>
    first
    | exact .inl ⟨_, (Option.some.inj h).symm, BitVec.eq_of_toNat_eq he, rfl, rfl⟩
    | exact .inr ⟨_, (Option.some.inj h).symm, fun _ => BitVec.eq_of_toNat_eq he⟩
    | cases h

/-- The 230 byte values that select no row (R54). -/
theorem shapeOf_none {op : Byte} : shapeOf op = none ↔ 26 ≤ op.toNat := by
  constructor
  · intro h
    unfold shapeOf at h
    split at h <;> cases h
    simp only [imp_false] at *
    omega
  · intro h
    unfold shapeOf
    split <;> first | omega | rfl

end Sys2Proof
end

