-- ==== Sys2Proof/Laws/Memory.lean ====
section
/-! SUPPORT. What the memory operations do: reads after writes, the canonical form is kept, equal reads are equal
memories, and the same for byte sequences. -/

namespace Sys2Proof.Machine

theorem Memory.read_cons (a : Nat) (v : Byte) (m : Memory) (x : Nat) (hx : a = x → m.read x = Memory.unwritten) :
    (Memory.cons a v m).read x = if a = x then v else m.read x := by
  unfold Memory.cons
  split
  · rename_i hv
    split
    · rename_i hax
      rw [hv, hx hax]
    · rfl
  · rfl

/-- An address below every listed one reads as unwritten. -/
theorem Memory.read_of_lt (m : Memory) (x : Nat) (h : ∀ c ∈ m, x < c.1) : m.read x = Memory.unwritten := by
  induction m with
  | nil => rfl
  | cons c m ih =>
    have hc := h c (by simp)
    rw [Memory.read, if_neg (by omega), ih fun d hd => h d (by simp [hd])]

theorem Memory.wf_tail {c : Host.Cell} {m : Memory} (h : Memory.wf (c :: m)) : Memory.wf m :=
  ⟨(List.pairwise_cons.mp h.1).2, fun d hd => h.2 d (by simp [hd])⟩

theorem Memory.head_lt {c : Host.Cell} {m : Memory} (h : Memory.wf (c :: m)) : ∀ d ∈ m, c.1 < d.1 :=
  (List.pairwise_cons.mp h.1).1

/-- A read after a write: the byte written at its address, the old byte everywhere else. -/
theorem Memory.read_write (m : Memory) (h : m.wf) (a : Nat) (v : Byte) (x : Nat) :
    (m.write a v).read x = if a = x then v else m.read x := by
  induction m with
  | nil => exact Memory.read_cons a v [] x fun _ => rfl
  | cons c m ih =>
    obtain ⟨k, w⟩ := c
    have hk := Memory.head_lt h
    unfold Memory.write
    split
    · refine Memory.read_cons a v _ x ?_
      rintro rfl
      refine Memory.read_of_lt _ _ fun d hd => ?_
      rcases List.mem_cons.mp hd with rfl | hd
      · assumption
      · have := hk d hd; simp only at this; omega
    · split
      · rename_i hak
        subst hak
        rw [Memory.read_cons a v m x (by rintro rfl; exact Memory.read_of_lt _ _ hk), Memory.read]
        split <;> rfl
      · rename_i hlt hne
        rw [Memory.read, Memory.read, ih (Memory.wf_tail h)]
        split
        · rw [if_neg (by omega)]
        · rfl

theorem Memory.mem_cons {a : Nat} {v : Byte} {m : Memory} {c : Host.Cell} (hc : c ∈ Memory.cons a v m) :
    c = (a, v) ∨ c ∈ m := by
  unfold Memory.cons at hc
  split at hc
  · exact .inr hc
  · exact List.mem_cons.mp hc

/-- A write lists no address but its own and the old ones. -/
theorem Memory.mem_write {m : Memory} {a : Nat} {v : Byte} {c : Host.Cell} (hc : c ∈ m.write a v) :
    c = (a, v) ∨ c ∈ m := by
  induction m with
  | nil => exact Memory.mem_cons hc
  | cons d m ih =>
    unfold Memory.write at hc
    split at hc
    · exact Memory.mem_cons hc
    · split at hc
      · rcases Memory.mem_cons hc with h | h
        · exact .inl h
        · exact .inr (by simp [h])
      · rcases List.mem_cons.mp hc with h | h
        · exact .inr (by simp [h])
        · rcases ih h with h | h
          · exact .inl h
          · exact .inr (by simp [h])

theorem Memory.cons_wf {a : Nat} {v : Byte} {m : Memory} (h : m.wf) (ha : ∀ c ∈ m, a < c.1) :
    (Memory.cons a v m).wf := by
  unfold Memory.cons
  split
  · exact h
  · rename_i hv
    exact ⟨List.pairwise_cons.mpr ⟨ha, h.1⟩, by
      intro c hc
      rcases List.mem_cons.mp hc with rfl | hc
      · exact hv
      · exact h.2 c hc⟩

/-- A write keeps the canonical form. -/
theorem Memory.write_wf (m : Memory) (h : m.wf) (a : Nat) (v : Byte) : (m.write a v).wf := by
  induction m with
  | nil => exact Memory.cons_wf h (by simp)
  | cons c m ih =>
    obtain ⟨k, w⟩ := c
    have hk := Memory.head_lt h
    unfold Memory.write
    split
    · rename_i hlt
      refine Memory.cons_wf h fun d hd => ?_
      rcases List.mem_cons.mp hd with rfl | hd
      · exact hlt
      · have := hk d hd; simp only at this; omega
    · split
      · rename_i hak
        exact Memory.cons_wf (Memory.wf_tail h) (hak ▸ hk)
      · have hw := ih (Memory.wf_tail h)
        refine ⟨List.pairwise_cons.mpr ⟨fun d hd => ?_, hw.1⟩, fun d hd => ?_⟩
        · rcases Memory.mem_write hd with rfl | hd
          · simp only; omega
          · exact hk d hd
        · rcases List.mem_cons.mp hd with rfl | hd
          · exact h.2 _ (by simp)
          · exact hw.2 d hd

/-- Memories in canonical form that read the same everywhere are equal. -/
theorem Memory.ext_read {m m' : Memory} (h : m.wf) (h' : m'.wf) (heq : ∀ x, m.read x = m'.read x) : m = m' := by
  induction m generalizing m' with
  | nil =>
    cases m' with
    | nil => rfl
    | cons d m' =>
      have := heq d.1
      rw [Memory.read, Memory.read, if_pos rfl] at this
      exact absurd this.symm (h'.2 d (by simp))
  | cons c m ih =>
    cases m' with
    | nil =>
      have := heq c.1
      rw [Memory.read, Memory.read, if_pos rfl] at this
      exact absurd this (h.2 c (by simp))
    | cons d m' =>
      have hc := Memory.head_lt h
      have hd := Memory.head_lt h'
      have hkey : c.1 = d.1 := by
        rcases Nat.lt_trichotomy c.1 d.1 with hlt | heq' | hgt
        · have := heq c.1
          rw [Memory.read, if_pos rfl, Memory.read_of_lt (d :: m') c.1 (by
            intro e he
            rcases List.mem_cons.mp he with rfl | he
            · exact hlt
            · have := hd e he; omega)] at this
          exact absurd this (h.2 c (by simp))
        · exact heq'
        · have := heq d.1
          rw [Memory.read_of_lt (c :: m) d.1 (by
            intro e he
            rcases List.mem_cons.mp he with rfl | he
            · exact hgt
            · have := hc e he; omega), Memory.read, if_pos rfl] at this
          exact absurd this.symm (h'.2 d (by simp))
      have hval : c.2 = d.2 := by
        have := heq c.1
        rwa [Memory.read, if_pos rfl, Memory.read, if_pos hkey.symm] at this
      have htail : m = m' := by
        refine ih (Memory.wf_tail h) (Memory.wf_tail h') fun x => ?_
        have := heq x
        rw [Memory.read, Memory.read] at this
        by_cases hx : c.1 = x
        · rw [Memory.read_of_lt m x fun e he => hx ▸ hc e he,
            Memory.read_of_lt m' x fun e he => by have := hd e he; omega]
        · rwa [if_neg hx, if_neg (by omega)] at this
      rw [htail, Prod.ext hkey hval]

@[simp] theorem Memory.readBytes_length (m : Memory) (a n : Nat) : (m.readBytes a n).length = n := by
  induction n generalizing a with
  | zero => rfl
  | succ n ih => simp [Memory.readBytes, ih]

theorem Memory.readBytes_congr {m m' : Memory} {a n : Nat} (h : ∀ x, a ≤ x → x < a + n → m.read x = m'.read x) :
    m.readBytes a n = m'.readBytes a n := by
  induction n generalizing a with
  | zero => rfl
  | succ n ih =>
    simp only [Memory.readBytes]
    rw [h a (by omega) (by omega), ih fun x h1 h2 => h x (by omega) (by omega)]

theorem Memory.readBytes_add (m : Memory) (a n k : Nat) :
    m.readBytes a (n + k) = m.readBytes a n ++ m.readBytes (a + n) k := by
  induction n generalizing a with
  | zero => simp [Memory.readBytes]
  | succ n ih =>
    rw [Nat.add_right_comm, Memory.readBytes, ih, Memory.readBytes, Nat.add_assoc, Nat.add_comm 1 n]
    rfl

theorem Memory.writeBytes_wf (m : Memory) (h : m.wf) (a : Nat) (bs : List Byte) : (m.writeBytes a bs).wf := by
  induction bs generalizing m a with
  | nil => exact h
  | cons b bs ih => exact ih _ (Memory.write_wf m h a b) _

theorem Memory.mem_writeBytes {m : Memory} {a : Nat} {bs : List Byte} {c : Host.Cell} (hc : c ∈ m.writeBytes a bs) :
    (a ≤ c.1 ∧ c.1 < a + bs.length) ∨ c ∈ m := by
  induction bs generalizing m a with
  | nil => exact .inr hc
  | cons b bs ih =>
    rcases ih hc with h | h
    · exact .inl (by simp only [List.length_cons]; omega)
    · rcases Memory.mem_write h with rfl | h
      · exact .inl (by simp)
      · exact .inr h

/-- A write of a byte sequence changes no byte outside it. -/
theorem Memory.read_writeBytes_outside (m : Memory) (h : m.wf) (a : Nat) (bs : List Byte) (x : Nat)
    (hx : x < a ∨ a + bs.length ≤ x) : (m.writeBytes a bs).read x = m.read x := by
  induction bs generalizing m a with
  | nil => rfl
  | cons b bs ih =>
    simp only [List.length_cons] at hx
    rw [Memory.writeBytes, ih _ (Memory.write_wf m h a b) _ (by omega), Memory.read_write m h, if_neg (by omega)]

/-- Reading back what was written gives the bytes in order. -/
theorem Memory.readBytes_writeBytes (m : Memory) (h : m.wf) (a : Nat) (bs : List Byte) :
    (m.writeBytes a bs).readBytes a bs.length = bs := by
  induction bs generalizing m a with
  | nil => rfl
  | cons b bs ih =>
    have hw := Memory.write_wf m h a b
    rw [List.length_cons, Memory.readBytes, Memory.writeBytes, ih _ hw,
      Memory.read_writeBytes_outside _ hw _ _ _ (by omega), Memory.read_write m h, if_pos rfl]

/-- Bytes outside a write read as before, as a sequence. -/
theorem Memory.readBytes_writeBytes_outside (m : Memory) (h : m.wf) (a : Nat) (bs : List Byte) (x n : Nat)
    (hx : x + n ≤ a ∨ a + bs.length ≤ x) : (m.writeBytes a bs).readBytes x n = m.readBytes x n :=
  Memory.readBytes_congr fun y h1 h2 => Memory.read_writeBytes_outside m h a bs y (by omega)

end Sys2Proof.Machine
end

