-- ==== Sys2Proof/Laws/State.lean ====
section
/-! SUPPORT. One lemma per field of State for each named update, and the fields of the start state. -/

namespace Sys2Proof.Machine

@[simp] theorem State.advance_cfg (s : State) (w : Nat) : (s.advance w).cfg = s.cfg := rfl
@[simp] theorem State.advance_prog (s : State) (w : Nat) : (s.advance w).prog = s.prog := rfl
@[simp] theorem State.advance_ip (s : State) (w : Nat) : (s.advance w).ip = s.ip + 1 + w := rfl
@[simp] theorem State.advance_top (s : State) (w : Nat) : (s.advance w).top = s.top := rfl
@[simp] theorem State.advance_stack (s : State) (w : Nat) : (s.advance w).stack = s.stack := rfl
@[simp] theorem State.advance_status (s : State) (w : Nat) : (s.advance w).status = s.status := rfl
@[simp] theorem State.advance_err (s : State) (w : Nat) : (s.advance w).err = s.err := rfl
@[simp] theorem State.advance_result (s : State) (w : Nat) : (s.advance w).result = s.result := rfl

@[simp] theorem State.setTop_cfg (s : State) (t : Int) : (s.setTop t).cfg = s.cfg := rfl
@[simp] theorem State.setTop_prog (s : State) (t : Int) : (s.setTop t).prog = s.prog := rfl
@[simp] theorem State.setTop_ip (s : State) (t : Int) : (s.setTop t).ip = s.ip := rfl
@[simp] theorem State.setTop_top (s : State) (t : Int) : (s.setTop t).top = t := rfl
@[simp] theorem State.setTop_stack (s : State) (t : Int) : (s.setTop t).stack = s.stack := rfl
@[simp] theorem State.setTop_status (s : State) (t : Int) : (s.setTop t).status = s.status := rfl
@[simp] theorem State.setTop_err (s : State) (t : Int) : (s.setTop t).err = s.err := rfl
@[simp] theorem State.setTop_result (s : State) (t : Int) : (s.setTop t).result = s.result := rfl

@[simp] theorem State.raised_cfg (s : State) (k : FaultKind) : (s.raised k).cfg = s.cfg := rfl
@[simp] theorem State.raised_prog (s : State) (k : FaultKind) : (s.raised k).prog = s.prog := rfl
@[simp] theorem State.raised_ip (s : State) (k : FaultKind) : (s.raised k).ip = s.ip := rfl
@[simp] theorem State.raised_top (s : State) (k : FaultKind) : (s.raised k).top = s.top := rfl
@[simp] theorem State.raised_stack (s : State) (k : FaultKind) : (s.raised k).stack = s.stack := rfl
@[simp] theorem State.raised_status (s : State) (k : FaultKind) : (s.raised k).status = .faulted := rfl
@[simp] theorem State.raised_err (s : State) (k : FaultKind) : (s.raised k).err = .fault k := rfl
@[simp] theorem State.raised_result (s : State) (k : FaultKind) : (s.raised k).result = s.result := rfl

@[simp] theorem State.finished_cfg (s : State) (v : Word64) : (s.finished v).cfg = s.cfg := rfl
@[simp] theorem State.finished_prog (s : State) (v : Word64) : (s.finished v).prog = s.prog := rfl
@[simp] theorem State.finished_ip (s : State) (v : Word64) : (s.finished v).ip = s.ip := rfl
@[simp] theorem State.finished_top (s : State) (v : Word64) : (s.finished v).top = s.top := rfl
@[simp] theorem State.finished_stack (s : State) (v : Word64) : (s.finished v).stack = s.stack := rfl
@[simp] theorem State.finished_status (s : State) (v : Word64) : (s.finished v).status = .done := rfl
@[simp] theorem State.finished_err (s : State) (v : Word64) : (s.finished v).err = s.err := rfl
@[simp] theorem State.finished_result (s : State) (v : Word64) : (s.finished v).result = v := rfl

@[simp] theorem State.start_cfg (c : Config) (p : List Byte) : (State.start c p).cfg = c := rfl
@[simp] theorem State.start_prog (c : Config) (p : List Byte) : (State.start c p).prog = p := rfl
@[simp] theorem State.start_ip (c : Config) (p : List Byte) : (State.start c p).ip = 0 := rfl
@[simp] theorem State.start_top (c : Config) (p : List Byte) : (State.start c p).top = -1 := rfl
@[simp] theorem State.start_stack (c : Config) (p : List Byte) : (State.start c p).stack = [] := rfl
@[simp] theorem State.start_status (c : Config) (p : List Byte) : (State.start c p).status = .running := rfl
@[simp] theorem State.start_err (c : Config) (p : List Byte) : (State.start c p).err = .none := rfl
@[simp] theorem State.start_result (c : Config) (p : List Byte) : (State.start c p).result = 0 := rfl

theorem State.applyReset_eq (s : State) (p : List Byte) : s.applyReset p = State.start s.cfg p := rfl

end Sys2Proof.Machine
end

