-- ==== Sys2Proof/Laws/Ops.lean ====
section
/-! SUPPORT. One inversion lemma and one completion lemma per shared operation: everything it can answer, and when it
answers a state. Later proofs cite these and unfold none of the operations. -/

namespace Sys2Proof.Machine

theorem State.memRead_some {s : State} {a : Int} {n : Nat} {b : List Byte} (h : s.memRead a n = some b) :
    0 ≤ a ∧ a + n ≤ s.cfg.capacity ∧ b = s.stack.readBytes a.toNat n := by
  unfold State.memRead at h
  split at h
  · rename_i hr
    exact ⟨hr.1, hr.2, by simpa using h.symm⟩
  · cases h

theorem State.memRead_eq {s : State} {a : Int} {n : Nat} (h0 : 0 ≤ a) (h1 : a + n ≤ s.cfg.capacity) :
    s.memRead a n = some (s.stack.readBytes a.toNat n) := if_pos ⟨h0, h1⟩

theorem State.memWrite_some {s t : State} {a : Int} {v : List Byte} (h : s.memWrite a v = some t) :
    0 ≤ a ∧ a + v.length ≤ s.cfg.capacity ∧ t = { s with stack := s.stack.writeBytes a.toNat v } := by
  unfold State.memWrite at h
  split at h
  · rename_i hr
    exact ⟨hr.1, hr.2, by simpa using h.symm⟩
  · cases h

theorem State.memWrite_eq {s : State} {a : Int} {v : List Byte} (h0 : 0 ≤ a) (h1 : a + v.length ≤ s.cfg.capacity) :
    s.memWrite a v = some { s with stack := s.stack.writeBytes a.toNat v } := if_pos ⟨h0, h1⟩

/-- Everything `Push(N, b)` can do (R35). -/
theorem State.push_cases (s : State) (n : Width) (b : List Byte) :
    (s.top + n.bytes ≥ s.cfg.capacity ∧ s.push n b = .error (.raise .stackOverflow)) ∨
    (s.top + n.bytes < s.cfg.capacity ∧ 0 ≤ s.pushAddr ∧ s.pushAddr + b.length ≤ s.cfg.capacity ∧
      s.push n b = .ok ({ s with stack := s.stack.writeBytes s.pushAddr.toNat b }.setTop (s.top + n.bytes))) ∨
    (¬(0 ≤ s.pushAddr ∧ s.pushAddr + b.length ≤ s.cfg.capacity) ∧
      s.push n b = .error (.fault .outsideStackSpace)) := by
  unfold State.push
  by_cases h : s.top + n.bytes ≥ s.cfg.capacity
  · exact .inl ⟨h, if_pos h⟩
  · rw [if_neg h]
    by_cases hr : 0 ≤ s.pushAddr ∧ s.pushAddr + b.length ≤ s.cfg.capacity
    · exact .inr (.inl ⟨by omega, hr.1, hr.2, by rw [State.memWrite_eq hr.1 hr.2]⟩)
    · exact .inr (.inr ⟨hr, by rw [State.memWrite, if_neg hr]⟩)

/-- Where `Push(N, b)` completes (R35). -/
theorem State.push_ok {s : State} {n : Width} {b : List Byte} (hb : b.length = n.bytes) (h0 : -1 ≤ s.top)
    (h1 : s.top + n.bytes < s.cfg.capacity) :
    s.push n b = .ok ({ s with stack := s.stack.writeBytes s.pushAddr.toNat b }.setTop (s.top + n.bytes)) := by
  rcases s.push_cases n b with h | h | h
  · omega
  · exact h.2.2.2
  · exact absurd (by unfold State.pushAddr; omega) h.1

/-- Everything `Pop(N)` can do (R36). -/
theorem State.pop_cases (s : State) (n : Width) :
    (s.top + 1 < n.bytes ∧ s.pop n = .error (.raise .stackUnderflow)) ∨
    ((n.bytes : Int) ≤ s.top + 1 ∧ s.top < s.cfg.capacity ∧
      s.pop n = .ok (s.stack.readBytes (s.addrA n).toNat n.bytes, s.setTop (s.top - n.bytes))) ∨
    (s.cfg.capacity ≤ s.top ∧ s.pop n = .error (.fault .outsideStackSpace)) := by
  unfold State.pop
  by_cases h : s.top + 1 < n.bytes
  · exact .inl ⟨h, if_pos h⟩
  · rw [if_neg h]
    by_cases hr : s.top < s.cfg.capacity
    · refine .inr (.inl ⟨by omega, hr, ?_⟩)
      rw [State.memRead_eq (by unfold State.addrA; omega) (by unfold State.addrA; omega)]
    · refine .inr (.inr ⟨by omega, ?_⟩)
      rw [State.memRead, if_neg (by unfold State.addrA; omega)]

/-- Where `Pop(N)` completes (R36). -/
theorem State.pop_ok {s : State} {n : Width} (h0 : (n.bytes : Int) ≤ s.top + 1) (h1 : s.top < s.cfg.capacity) :
    s.pop n = .ok (s.stack.readBytes (s.addrA n).toNat n.bytes, s.setTop (s.top - n.bytes)) := by
  rcases s.pop_cases n with h | h | h
  · omega
  · exact h.2.2
  · omega

/-- The bytes an arithmetic instruction stores: the low `N` bytes of the unit's result (R113). -/
def State.arithBytes (s : State) (o : ArithOp) (n : Width) : List Byte :=
  leBytes n.bytes (truncN n.bytes (alu o (zext64 (s.operandA n)) (zext64 (s.operandB n))))

@[simp] theorem State.arithBytes_length (s : State) (o : ArithOp) (n : Width) :
    (s.arithBytes o n).length = n.bytes := leBytes_length _ _

/-- The zero-extended divisor is 0 exactly when operand B is (R116). -/
theorem State.zext_operandB_eq_zero (s : State) (n : Width) : zext64 (s.operandB n) = 0 ↔ s.operandB n = 0 := by
  have h : (zext64 (s.operandB n)).toNat = s.operandB n :=
    zext64_leNat _ (by rw [Memory.readBytes_length]; exact n.bytes_le)
  constructor
  · intro hz
    rw [← h, hz]
    rfl
  · intro hz
    apply BitVec.eq_of_toNat_eq
    rw [h, hz]
    rfl

/-- Everything `ARITH(O, N)` can do (R110). -/
theorem State.arith_cases (s : State) (o : ArithOp) (n : Width) :
    (s.top + 1 < 2 * n.bytes ∧ s.arith o n = .error (.raise .stackUnderflow)) ∨
    (2 * (n.bytes : Int) ≤ s.top + 1 ∧ s.top < s.cfg.capacity ∧ o = .div ∧ s.operandB n = 0 ∧
      s.arith o n = .error (.raise .divideByZero)) ∨
    (2 * (n.bytes : Int) ≤ s.top + 1 ∧ s.top < s.cfg.capacity ∧ ¬(o = .div ∧ s.operandB n = 0) ∧
      s.arith o n = .ok ({ s with stack := s.stack.writeBytes (s.addrB n).toNat (s.arithBytes o n) }.setTop
        (s.top - n.bytes))) ∨
    (s.cfg.capacity ≤ s.top ∧ s.arith o n = .error (.fault .outsideStackSpace)) := by
  unfold State.arith
  by_cases h : s.top + 1 < 2 * n.bytes
  · exact .inl ⟨h, if_pos h⟩
  · rw [if_neg h]
    by_cases hr : s.top < s.cfg.capacity
    · rw [State.memRead_eq (by unfold State.addrA; omega) (by unfold State.addrA; omega),
        State.memRead_eq (by unfold State.addrB; omega) (by unfold State.addrB; omega)]
      by_cases hz : o = .div ∧ s.operandB n = 0
      · refine .inr (.inl ⟨by omega, hr, hz.1, hz.2, ?_⟩)
        exact if_pos ⟨hz.1, (s.zext_operandB_eq_zero n).mpr hz.2⟩
      · refine .inr (.inr (.inl ⟨by omega, hr, hz, ?_⟩))
        have hne : ¬(o = .div ∧ zext64 (s.operandB n) = 0) := fun hc =>
          hz ⟨hc.1, (s.zext_operandB_eq_zero n).mp hc.2⟩
        unfold State.operandB at hne
        simp only [hne, if_false]
        rw [State.memWrite_eq (by unfold State.addrB; omega) (by rw [leBytes_length]; unfold State.addrB; omega)]
        rfl
    · refine .inr (.inr (.inr ⟨by omega, ?_⟩))
      rw [State.memRead, if_neg (by unfold State.addrA; omega)]

/-- Where `ARITH(O, N)` completes (R110, R116). -/
theorem State.arith_ok {s : State} {o : ArithOp} {n : Width} (h0 : 2 * (n.bytes : Int) ≤ s.top + 1)
    (h1 : s.top < s.cfg.capacity) (hz : ¬(o = .div ∧ s.operandB n = 0)) :
    s.arith o n = .ok ({ s with stack := s.stack.writeBytes (s.addrB n).toNat (s.arithBytes o n) }.setTop
      (s.top - n.bytes)) := by
  rcases s.arith_cases o n with h | h | h | h
  · omega
  · exact absurd ⟨h.2.2.1, h.2.2.2.1⟩ hz
  · exact h.2.2.2
  · omega

/-- Everything the final extraction can do (R71). -/
theorem finalExtraction_cases (s : State) :
    (s.top + 1 < 8 ∧ finalExtraction s = .next (s.raised .stackUnderflow)) ∨
    (8 ≤ s.top + 1 ∧ s.top < s.cfg.capacity ∧
      finalExtraction s = .next ((s.setTop (s.top - 8)).finished (BitVec.ofNat 64 (s.operandA .dw)))) ∨
    (s.cfg.capacity ≤ s.top ∧ finalExtraction s = .fault .outsideStackSpace) := by
  unfold finalExtraction
  rcases s.pop_cases .dw with h | h | h
  · refine .inl ⟨h.1, ?_⟩
    rw [h.2]
    rfl
  · refine .inr (.inl ⟨h.1, h.2.1, ?_⟩)
    rw [h.2.2]
    rfl
  · refine .inr (.inr ⟨h.1, ?_⟩)
    rw [h.2]
    rfl

/-- A sequence read whole is the program's bytes from `addr` on (R33). -/
theorem State.progRead_some {s : State} {a n : Nat} {b : List Byte} (h : s.progRead a n = some b) :
    a + n ≤ s.prog.length ∧ b = (s.prog.drop a).take n := by
  unfold State.progRead at h
  split at h
  · exact ⟨‹_›, by simpa using h.symm⟩
  · cases h

end Sys2Proof.Machine
end

