-- ==== Sys2Proof/Laws/Step.lean ====
section
/-! SUPPORT. What each family of instructions and the step can do, said once. Later proofs split on these lemmas and
unfold neither `exec` nor `step`. -/

namespace Sys2Proof.Machine

@[simp] theorem State.settle_ok (s t : State) : s.settle (.ok t) = .next t := rfl

@[simp] theorem State.settle_raise (s : State) (k : FaultKind) :
    s.settle (.error (.raise k)) = .next (s.raised k) := rfl

@[simp] theorem State.settle_fault (s : State) (f : Fault) : s.settle (.error (.fault f)) = .fault f := rfl

theorem exec_push (n : Width) (imm : List Byte) (s : State) : exec (.push n imm) s = pushImm n imm s := by
  cases n <;> rfl

theorem exec_pop (n : Width) (s : State) : exec (.pop n) s = popDiscard n s := by cases n <;> rfl

theorem exec_arith (o : ArithOp) (n : Width) (s : State) : exec (.arith o n) s = arithStep o n s := by
  cases o <;> cases n <;> rfl

/-- Every instruction is of one of the four shapes. -/
theorem instr_shapes (i : Instr) :
    i = .nop ∨ i = .halt ∨ (∃ n imm, i = .push n imm) ∨ (∃ n, i = .pop n) ∨ ∃ o n, i = .arith o n := by
  cases i with
  | nop => exact .inl rfl
  | halt => exact .inr (.inl rfl)
  | pushb imm => exact .inr (.inr (.inl ⟨.b, imm, rfl⟩))
  | pushsw imm => exact .inr (.inr (.inl ⟨.sw, imm, rfl⟩))
  | pushw imm => exact .inr (.inr (.inl ⟨.w, imm, rfl⟩))
  | pushdw imm => exact .inr (.inr (.inl ⟨.dw, imm, rfl⟩))
  | popb => exact .inr (.inr (.inr (.inl ⟨.b, rfl⟩)))
  | popsw => exact .inr (.inr (.inr (.inl ⟨.sw, rfl⟩)))
  | popw => exact .inr (.inr (.inr (.inl ⟨.w, rfl⟩)))
  | popdw => exact .inr (.inr (.inr (.inl ⟨.dw, rfl⟩)))
  | addb => exact .inr (.inr (.inr (.inr ⟨.add, .b, rfl⟩)))
  | addsw => exact .inr (.inr (.inr (.inr ⟨.add, .sw, rfl⟩)))
  | addw => exact .inr (.inr (.inr (.inr ⟨.add, .w, rfl⟩)))
  | adddw => exact .inr (.inr (.inr (.inr ⟨.add, .dw, rfl⟩)))
  | subb => exact .inr (.inr (.inr (.inr ⟨.sub, .b, rfl⟩)))
  | subsw => exact .inr (.inr (.inr (.inr ⟨.sub, .sw, rfl⟩)))
  | subw => exact .inr (.inr (.inr (.inr ⟨.sub, .w, rfl⟩)))
  | subdw => exact .inr (.inr (.inr (.inr ⟨.sub, .dw, rfl⟩)))
  | mulb => exact .inr (.inr (.inr (.inr ⟨.mul, .b, rfl⟩)))
  | mulsw => exact .inr (.inr (.inr (.inr ⟨.mul, .sw, rfl⟩)))
  | mulw => exact .inr (.inr (.inr (.inr ⟨.mul, .w, rfl⟩)))
  | muldw => exact .inr (.inr (.inr (.inr ⟨.mul, .dw, rfl⟩)))
  | divb => exact .inr (.inr (.inr (.inr ⟨.div, .b, rfl⟩)))
  | divsw => exact .inr (.inr (.inr (.inr ⟨.div, .sw, rfl⟩)))
  | divw => exact .inr (.inr (.inr (.inr ⟨.div, .w, rfl⟩)))
  | divdw => exact .inr (.inr (.inr (.inr ⟨.div, .dw, rfl⟩)))

/-- Everything a PUSH can do (R90). -/
theorem pushImm_cases (n : Width) (imm : List Byte) (s : State) :
    (imm.length ≠ n.bytes ∧ pushImm n imm s = .refused .illFormedImmediate) ∨
    (imm.length = n.bytes ∧ s.prog.length ≤ s.ip + n.bytes ∧ pushImm n imm s = .next (s.raised .truncatedProgram)) ∨
    (imm.length = n.bytes ∧ s.ip + n.bytes < s.prog.length ∧ s.cfg.capacity ≤ s.top + n.bytes ∧
      pushImm n imm s = .next (s.raised .stackOverflow)) ∨
    (imm.length = n.bytes ∧ s.ip + n.bytes < s.prog.length ∧ s.top + n.bytes < s.cfg.capacity ∧ -1 ≤ s.top ∧
      pushImm n imm s = .next (({ s with stack := s.stack.writeBytes s.pushAddr.toNat imm }.setTop
        (s.top + n.bytes)).advance n.bytes)) ∨
    (imm.length = n.bytes ∧ s.top < -1 ∧ pushImm n imm s = .fault .outsideStackSpace) := by
  unfold pushImm
  by_cases hl : imm.length = n.bytes
  · rw [if_neg (by simp [hl])]
    by_cases ht : s.ip + n.bytes ≥ s.prog.length
    · exact .inr (.inl ⟨hl, ht, by rw [if_pos ht]; rfl⟩)
    · rw [if_neg ht]
      rcases s.push_cases n imm with h | h | h
      · exact .inr (.inr (.inl ⟨hl, by omega, h.1, by rw [h.2]; rfl⟩))
      · have h0 := h.2.1
        unfold State.pushAddr at h0
        exact .inr (.inr (.inr (.inl ⟨hl, by omega, h.1, by omega, by rw [h.2.2.2]; rfl⟩)))
      · by_cases hr : s.top < -1
        · exact .inr (.inr (.inr (.inr ⟨hl, hr, by rw [h.2]; rfl⟩)))
        · by_cases hc : s.cfg.capacity ≤ s.top + n.bytes
          · refine .inr (.inr (.inl ⟨hl, by omega, hc, ?_⟩))
            unfold State.push
            rw [if_pos hc]
            rfl
          · exact absurd (by unfold State.pushAddr; omega) h.1
  · exact .inl ⟨hl, if_pos hl⟩

/-- Everything a POP can do (R90). -/
theorem popDiscard_cases (n : Width) (s : State) :
    (s.top + 1 < n.bytes ∧ popDiscard n s = .next (s.raised .stackUnderflow)) ∨
    ((n.bytes : Int) ≤ s.top + 1 ∧ s.top < s.cfg.capacity ∧
      popDiscard n s = .next ((s.setTop (s.top - n.bytes)).advance 0)) ∨
    (s.cfg.capacity ≤ s.top ∧ popDiscard n s = .fault .outsideStackSpace) := by
  unfold popDiscard
  rcases s.pop_cases n with h | h | h
  · exact .inl ⟨h.1, by rw [h.2]; rfl⟩
  · exact .inr (.inl ⟨h.1, h.2.1, by rw [h.2.2]; rfl⟩)
  · exact .inr (.inr ⟨h.1, by rw [h.2]; rfl⟩)

/-- Everything an arithmetic instruction can do (R110). -/
theorem arithStep_cases (o : ArithOp) (n : Width) (s : State) :
    (s.top + 1 < 2 * n.bytes ∧ arithStep o n s = .next (s.raised .stackUnderflow)) ∨
    (2 * (n.bytes : Int) ≤ s.top + 1 ∧ s.top < s.cfg.capacity ∧ o = .div ∧ s.operandB n = 0 ∧
      arithStep o n s = .next (s.raised .divideByZero)) ∨
    (2 * (n.bytes : Int) ≤ s.top + 1 ∧ s.top < s.cfg.capacity ∧ ¬(o = .div ∧ s.operandB n = 0) ∧
      arithStep o n s = .next (({ s with stack := s.stack.writeBytes (s.addrB n).toNat (s.arithBytes o n) }.setTop
        (s.top - n.bytes)).advance 0)) ∨
    (s.cfg.capacity ≤ s.top ∧ arithStep o n s = .fault .outsideStackSpace) := by
  unfold arithStep
  rcases s.arith_cases o n with h | h | h | h
  · exact .inl ⟨h.1, by rw [h.2]; rfl⟩
  · exact .inr (.inl ⟨h.1, h.2.1, h.2.2.1, h.2.2.2.1, by rw [h.2.2.2.2]; rfl⟩)
  · exact .inr (.inr (.inl ⟨h.1, h.2.1, h.2.2.1, by rw [h.2.2.2]; rfl⟩))
  · exact .inr (.inr (.inr ⟨h.1, by rw [h.2]; rfl⟩))

/-- Everything a step can do (R70): no step, the final extraction, the instruction at `ip`, or a fault found before
any instruction ran. -/
theorem step_cases (s : State) :
    (s.status ≠ .running ∧ step s = .fault .notRunning) ∨
    (s.status = .running ∧ s.prog.length ≤ s.ip ∧ step s = finalExtraction s) ∨
    (s.status = .running ∧ s.ip < s.prog.length ∧ ∃ i rest, s.fetch = .ok (i, rest) ∧ step s = exec i s) ∨
    (s.status = .running ∧ s.ip < s.prog.length ∧ ∃ op, s.fetch = .error (.invalidOpcode op) ∧
      step s = .next (s.raised .invalidOpcode)) ∨
    (s.status = .running ∧ s.ip < s.prog.length ∧ ∃ n, s.fetch = .error (.truncated n) ∧
      step s = .next (s.raised .truncatedProgram)) := by
  unfold step sequencerStep
  by_cases hr : s.status = .running
  · rw [if_neg (by simp [hr])]
    by_cases hl : s.prog.length ≤ s.ip
    · exact .inr (.inl ⟨hr, hl, if_pos hl⟩)
    · rw [if_neg hl]
      rcases hf : s.fetch with e | ⟨i, rest⟩
      · cases e with
        | noBytes =>
          unfold State.fetch State.fetchBytes at hf
          cases hd : s.prog.drop s.ip with
          | nil => exact absurd (List.drop_eq_nil_iff.mp hd) hl
          | cons op rest =>
            rw [hd] at hf
            exact absurd hf (decode_ne_noBytes op rest)
        | invalidOpcode op => exact .inr (.inr (.inr (.inl ⟨hr, by omega, op, rfl, rfl⟩)))
        | truncated n => exact .inr (.inr (.inr (.inr ⟨hr, by omega, n, rfl, rfl⟩)))
      · exact .inr (.inr (.inl ⟨hr, by omega, i, rest, rfl, rfl⟩))
  · exact .inl ⟨hr, if_pos hr⟩

/-- A run of several steps, one step at a time; `M` is a variable, so that `run` unfolds. -/
theorem run_next {M : Host.Core} {s t : M.State} {k : Nat} (h : M.step s = .next t) : M.run (k + 1) s = M.run k t := by
  simp only [Host.Core.run, h]

end Sys2Proof.Machine
end

