-- ==== Sys2Proof/Laws/Safety.lean ====
section
/-! SUPPORT. The invariant from its checks, and that fault entry and a change of RESULT keep it. -/

namespace Sys2Proof.Machine

/-- The invariant from one decidable conjunction, for concrete states. -/
theorem inv_of_checks {s : State}
    (h : s.cfg.Valid ∧ s.prog.length ≤ s.cfg.maxProgLen ∧ s.ip ≤ s.prog.length ∧ -1 ≤ s.top ∧
      s.top < s.cfg.capacity ∧ s.stack.wf ∧ (∀ c ∈ s.stack, c.1 < s.cfg.capacity) ∧
      (s.err = .none ↔ s.status ≠ .faulted)) : Inv s :=
  ⟨h.1, h.2.1, h.2.2.1, ⟨h.2.2.2.1, h.2.2.2.2.1⟩, h.2.2.2.2.2.1, h.2.2.2.2.2.2.1, h.2.2.2.2.2.2.2⟩

/-- Fault entry keeps the invariant. -/
theorem Inv.raised {s : State} (h : Inv s) (k : FaultKind) : Inv (s.raised k) :=
  ⟨h.valid, h.prog_fits, h.ip_le, ⟨h.stack.neg_one_le, h.stack.lt_capacity⟩, h.mem_wf, h.mem_bound, by simp⟩

/-- A write inside the stack space keeps the canonical form and the bound. -/
theorem Inv.writeBytes {s : State} (h : Inv s) (a : Nat) (bs : List Byte) (hb : a + bs.length ≤ s.cfg.capacity) :
    (s.stack.writeBytes a bs).wf ∧ ∀ c ∈ s.stack.writeBytes a bs, c.1 < s.cfg.capacity := by
  refine ⟨Memory.writeBytes_wf _ h.mem_wf _ _, fun c hc => ?_⟩
  rcases Memory.mem_writeBytes hc with hc | hc
  · omega
  · exact h.mem_bound c hc

end Sys2Proof.Machine
end

