-- ==== Sys2Proof/Tests/Slice0.lean ====
section
/-! SUPPORT. The author's own tests: ill-formed terms, decoding by words written out from R53, one step at a time from
the spec's test vectors (95_test_vectors.md, named in each comment), and for every statement with hypotheses a concrete
state and operands that meet them. Every expected value comes from the spec's text. -/

namespace Sys2Proof.Tests

open Sys2Proof.Machine

/-- A RUNNING machine of capacity `c` with program `p`, `ip`, and the live bytes given bottom to top. -/
def st (c : Nat) (p : List Byte) (ip : Nat) (bytes : List Byte) : State :=
  { State.start { capacity := c, ipWidth := 8 } p with
    ip := ip, top := (bytes.length : Int) - 1, stack := Memory.writeBytes [] 0 bytes }

/-- The next state, if there is one. -/
def nextOf : Host.Outcome State Fault Refusal → Option State
  | .next t => some t
  | .fault _ => none
  | .refused _ => none

/-- `ip`, the live bytes bottom to top, `STATUS` and `ERR` of the next state. -/
def view (o : Host.Outcome State Fault Refusal) : Option (Nat × List Byte × Status × Err) :=
  (nextOf o).map fun t => (t.ip, t.peekDebug.reverse, t.status, t.err)

/-- An instruction that went on: `ip` and the live bytes. -/
def ran (ip : Nat) (bytes : List Byte) : Option (Nat × List Byte × Status × Err) := some (ip, bytes, .running, .none)

/-- An instruction that faulted: `ip` and the live bytes stay. -/
def trapped (ip : Nat) (bytes : List Byte) (k : FaultKind) : Option (Nat × List Byte × Status × Err) :=
  some (ip, bytes, .faulted, .fault k)

/-! Ill-formed terms. -/

theorem test_illFormed_pushb : ¬ (Instr.pushb []).WellFormed := by decide
theorem test_illFormed_pushsw : ¬ (Instr.pushsw [1]).WellFormed := by decide
theorem test_illFormed_pushw : ¬ (Instr.pushw [1, 2, 3, 4, 5]).WellFormed := by decide
theorem test_illFormed_pushdw : ¬ (Instr.pushdw [1, 2, 3, 4]).WellFormed := by decide
theorem test_wellFormed_pushdw : (Instr.pushdw [1, 2, 3, 4, 5, 6, 7, 8]).WellFormed := by decide

/-! Decoding, from R53's table: bytes written out, and words of the opcode table. -/

theorem test_decode_nop_halt : decode [0b00000000] = .ok (.nop, []) ∧ decode [0b00001001, 7] = .ok (.halt, [7]) := by
  decide
theorem test_decode_push : decode [0b00000001, 0xAB, 9] = .ok (.pushb [0xAB], [9]) ∧
    decode [0b00000010, 0x34, 0x12] = .ok (.pushsw [0x34, 0x12], []) ∧
    decode [0b00000011, 0x44, 0x33, 0x22, 0x11] = .ok (.pushw [0x44, 0x33, 0x22, 0x11], []) ∧
    decode [0b00000100, 1, 2, 3, 4, 5, 6, 7, 8, 9] = .ok (.pushdw [1, 2, 3, 4, 5, 6, 7, 8], [9]) := by decide
theorem test_decode_pop : decode [0b00000101] = .ok (.popb, []) ∧ decode [0b00000110] = .ok (.popsw, []) ∧
    decode [0b00000111] = .ok (.popw, []) ∧ decode [0b00001000] = .ok (.popdw, []) := by decide
theorem test_decode_add : decode [0b00001010] = .ok (.addb, []) ∧ decode [0b00001011] = .ok (.addsw, []) ∧
    decode [0b00001100] = .ok (.addw, []) ∧ decode [0b00001101] = .ok (.adddw, []) := by decide
theorem test_decode_sub : decode [0b00001110] = .ok (.subb, []) ∧ decode [0b00001111] = .ok (.subsw, []) ∧
    decode [0b00010000] = .ok (.subw, []) ∧ decode [0b00010001] = .ok (.subdw, []) := by decide
theorem test_decode_mul : decode [0b00010010] = .ok (.mulb, []) ∧ decode [0b00010011] = .ok (.mulsw, []) ∧
    decode [0b00010100] = .ok (.mulw, []) ∧ decode [0b00010101] = .ok (.muldw, []) := by decide
theorem test_decode_div : decode [0b00010110] = .ok (.divb, []) ∧ decode [0b00010111] = .ok (.divsw, []) ∧
    decode [0b00011000] = .ok (.divw, []) ∧ decode [0b00011001] = .ok (.divdw, []) := by decide
theorem test_decode_rejects : decode [] = .error .noBytes ∧ decode [0x1A] = .error (.invalidOpcode 0x1A) ∧
    decode [0xFF, 0] = .error (.invalidOpcode 0xFF) ∧ decode [0x03, 0xAA, 0xBB] = .error (.truncated .w) := by decide
theorem test_tableWord : decodeTableWord 24 0x123402 = some (.pushsw [0x34, 0x12]) ∧
    decodeTableWord 8 0x04 = some (.pushdw [0, 0, 0, 0, 0, 0, 0, 0]) ∧ decodeTableWord 8 0x1A = none := by decide
theorem test_encode_pushw : encode (.pushw [0x44, 0x33, 0x22, 0x11]) = [0x03, 0x44, 0x33, 0x22, 0x11] := by decide

/-! One step each, from the vectors of 95_test_vectors.md and the rules' examples. -/

/-- V-SEQ-1. -/
theorem test_nop : view (exec .nop (st 8 [0, 0, 0, 0, 1] 3 [1, 2])) = ran 4 [1, 2] := by decide

/-- V-SEQ-2. -/
theorem test_halt : view (exec .halt (st 8 [0, 0, 0, 9, 1] 3 [1, 2])) = ran 4 [1, 2] := by decide

/-- V-PUSH-6 and V-PUSH-12: exactly full, and the immediate is the last byte. -/
theorem test_pushb_last_byte : view (step (st 8 [0, 0x01, 0x07] 1 [1, 2, 3, 4, 5, 6, 7])) = ran 3 [1, 2, 3, 4, 5, 6, 7, 7] := by decide

/-- V-PUSH-5. -/
theorem test_pushb_full : view (step (st 8 [0x01, 0x01] 0 [1, 2, 3, 4, 5, 6, 7, 8])) = trapped 0 [1, 2, 3, 4, 5, 6, 7, 8] .stackOverflow := by decide

/-- V-PUSH-2. -/
theorem test_pushsw : view (step (st 8 [0x02, 0x34, 0x12] 0 [])) = ran 3 [0x34, 0x12] := by decide

/-- V-PUSH-7: no byte is written. -/
theorem test_pushsw_one_free : view (step (st 8 [0x02, 1, 2] 0 [1, 2, 3, 4, 5, 6, 7])) = trapped 0 [1, 2, 3, 4, 5, 6, 7] .stackOverflow := by decide

/-- V-PUSH-3. -/
theorem test_pushw : view (step (st 8 [0, 0, 0, 0x03, 0x44, 0x33, 0x22, 0x11] 3 [0x34, 0x12])) = ran 8 [0x34, 0x12, 0x44, 0x33, 0x22, 0x11] := by decide

/-- V-PUSH-11. -/
theorem test_pushw_truncated : view (step (st 8 [0, 0x03, 0xAA, 0xBB] 1 [])) = trapped 1 [] .truncatedProgram := by decide

/-- V-PUSH-4. -/
theorem test_pushdw : view (step (st 8 [0x04, 0x88, 0x77, 0x66, 0x55, 0x44, 0x33, 0x22, 0x11] 0 [])) =
    ran 9 [0x88, 0x77, 0x66, 0x55, 0x44, 0x33, 0x22, 0x11] := by decide

/-- V-PUSH-13: TruncatedProgram goes first. -/
theorem test_pushdw_truncated_on_full_stack : view (step (st 8 [0x04] 0 [1, 2, 3, 4, 5, 6, 7, 8])) = trapped 0 [1, 2, 3, 4, 5, 6, 7, 8] .truncatedProgram := by decide

/-- V-POP-2. -/
theorem test_popb : view (exec .popb (st 8 [5] 0 [0xAB])) = ran 1 [] := by decide

/-- V-POP-1. -/
theorem test_popb_empty : view (exec .popb (st 8 [5] 0 [])) = trapped 0 [] .stackUnderflow := by decide

/-- V-POP-4. -/
theorem test_popsw : view (exec .popsw (st 8 [6] 0 [0x34, 0x12, 0x44, 0x33, 0x22, 0x11])) = ran 1 [0x34, 0x12, 0x44, 0x33] := by decide

/-- V-POP-3. -/
theorem test_popsw_one_byte : view (exec .popsw (st 8 [6] 0 [0xAB])) = trapped 0 [0xAB] .stackUnderflow := by decide

/-- V-POP-8. -/
theorem test_popw : view (exec .popw (st 8 [7] 0 [0x88, 0x77, 0x66, 0x55, 0x44, 0x33, 0x22, 0x11])) = ran 1 [0x88, 0x77, 0x66, 0x55] := by decide

/-- V-POP-7. -/
theorem test_popdw : view (exec .popdw (st 16 [8] 0 [1, 2, 3, 4, 5, 6, 7, 8, 9, 10, 11, 12, 13, 14, 15, 16])) =
    ran 1 [1, 2, 3, 4, 5, 6, 7, 8] := by decide

/-- V-POP-6. -/
theorem test_popdw_seven : view (exec .popdw (st 16 [8] 0 [1, 2, 3, 4, 5, 6, 7])) = trapped 0 [1, 2, 3, 4, 5, 6, 7] .stackUnderflow := by decide

/-- V-ADD-1, above a byte that stays. -/
theorem test_addb_wraps : view (exec .addb (st 24 [0] 0 [0x77, 0x64, 0xC8])) =
    ran 1 [0x77, 0x2C] := by decide

/-- V-ADD-8. -/
theorem test_addb_one_byte : view (exec .addb (st 24 [0] 0 [0x05])) =
    trapped 0 [0x05] .stackUnderflow := by decide

/-- V-ADD-3. -/
theorem test_addsw_sum : view (exec .addsw (st 24 [0] 0 [0x01, 0x01, 0x34, 0x12])) =
    ran 1 [0x35, 0x13] := by decide

/-- V-MIX-2. -/
theorem test_addsw_mixed : view (exec .addsw (st 24 [0] 0 [0x01, 0x02, 0x03, 0x04])) =
    ran 1 [0x04, 0x06] := by decide

/-- V-ADD-5. -/
theorem test_addw_wraps : view (exec .addw (st 24 [0] 0 [0x01, 0x00, 0x00, 0x00, 0xFF, 0xFF, 0xFF, 0xFF])) =
    ran 1 [0x00, 0x00, 0x00, 0x00] := by decide

/-- V-ADD-7. -/
theorem test_adddw_signed_wrap : view (exec .adddw (st 24 [0] 0 [0x00, 0x00, 0x00, 0x00, 0x00, 0x00, 0x00, 0x80, 0x00, 0x00, 0x00, 0x00, 0x00, 0x00, 0x00, 0x80])) =
    ran 1 [0x00, 0x00, 0x00, 0x00, 0x00, 0x00, 0x00, 0x00] := by decide

/-- V-SUB-1. -/
theorem test_subb_order : view (exec .subb (st 24 [0] 0 [0x02, 0x05])) =
    ran 1 [0x03] := by decide

/-- V-SUB-2. -/
theorem test_subb_wraps : view (exec .subb (st 24 [0] 0 [0x05, 0x02])) =
    ran 1 [0xFD] := by decide

/-- V-SUB-4. -/
theorem test_subsw_borrow : view (exec .subsw (st 24 [0] 0 [0x01, 0x00, 0x00, 0x02])) =
    ran 1 [0xFF, 0x01] := by decide

/-- V-SUB-5. -/
theorem test_subw_wraps : view (exec .subw (st 24 [0] 0 [0x01, 0x00, 0x00, 0x00, 0x00, 0x00, 0x00, 0x00])) =
    ran 1 [0xFF, 0xFF, 0xFF, 0xFF] := by decide

/-- V-SUB-8. -/
theorem test_subw_seven : view (exec .subw (st 24 [0] 0 [0x01, 0x02, 0x03, 0x04, 0x05, 0x06, 0x07])) =
    trapped 0 [0x01, 0x02, 0x03, 0x04, 0x05, 0x06, 0x07] .stackUnderflow := by decide

/-- V-SUB-7. -/
theorem test_subdw_scenario : view (exec .subdw (st 24 [0] 0 [0x03, 0x00, 0x00, 0x00, 0x00, 0x00, 0x00, 0x00, 0x04, 0x00, 0x00, 0x00, 0x00, 0x00, 0x00, 0x00])) =
    ran 1 [0x01, 0x00, 0x00, 0x00, 0x00, 0x00, 0x00, 0x00] := by decide

/-- V-MUL-2. -/
theorem test_mulb_unsigned : view (exec .mulb (st 24 [0] 0 [0xFF, 0xFF])) =
    ran 1 [0x01] := by decide

/-- V-MUL-3. -/
theorem test_mulb_product : view (exec .mulb (st 24 [0] 0 [0x07, 0x06])) =
    ran 1 [0x2A] := by decide

/-- V-MUL-4. -/
theorem test_mulsw_truncates : view (exec .mulsw (st 24 [0] 0 [0x2C, 0x01, 0x2C, 0x01])) =
    ran 1 [0x90, 0x5F] := by decide

/-- V-MUL-7. -/
theorem test_mulw_truncates : view (exec .mulw (st 24 [0] 0 [0xFF, 0xFF, 0xFF, 0xFF, 0xFF, 0xFF, 0xFF, 0xFF])) =
    ran 1 [0x01, 0x00, 0x00, 0x00] := by decide

/-- V-MUL-11. -/
theorem test_muldw_low_half : view (exec .muldw (st 24 [0] 0 [0x02, 0x00, 0x00, 0x00, 0x00, 0x00, 0x00, 0x00, 0xFF, 0xFF, 0xFF, 0xFF, 0xFF, 0xFF, 0xFF, 0xFF])) =
    ran 1 [0xFE, 0xFF, 0xFF, 0xFF, 0xFF, 0xFF, 0xFF, 0xFF] := by decide

/-- V-DIV-4. -/
theorem test_divb_not_sign_extended : view (exec .divb (st 24 [0] 0 [0xFF, 0x80])) =
    ran 1 [0x00] := by decide

/-- V-DIV-20: underflow goes first. -/
theorem test_divb_zero_alone : view (exec .divb (st 24 [0] 0 [0x00])) =
    trapped 0 [0x00] .stackUnderflow := by decide

/-- V-DIV-8. -/
theorem test_divsw_quotient : view (exec .divsw (st 24 [0] 0 [0x07, 0x00, 0xE8, 0x03])) =
    ran 1 [0x8E, 0x00] := by decide

/-- V-DIV-5 at width 2. -/
theorem test_divsw_by_zero : view (exec .divsw (st 24 [0] 0 [0x00, 0x00, 0x07, 0x00])) =
    trapped 0 [0x00, 0x00, 0x07, 0x00] .divideByZero := by decide

/-- V-DIV-10. -/
theorem test_divw_unsigned : view (exec .divw (st 24 [0] 0 [0xFF, 0xFF, 0xFF, 0xFF, 0x00, 0x00, 0x00, 0x80])) =
    ran 1 [0x00, 0x00, 0x00, 0x00] := by decide

/-- V-DIV-14: 7 / -2 = -3. -/
theorem test_divdw_toward_zero : view (exec .divdw (st 24 [0] 0 [0xFE, 0xFF, 0xFF, 0xFF, 0xFF, 0xFF, 0xFF, 0xFF, 0x07, 0x00, 0x00, 0x00, 0x00, 0x00, 0x00, 0x00])) =
    ran 1 [0xFD, 0xFF, 0xFF, 0xFF, 0xFF, 0xFF, 0xFF, 0xFF] := by decide

/-- V-DIV-16: -2^63 / -1. -/
theorem test_divdw_overflow : view (exec .divdw (st 24 [0] 0 [0xFF, 0xFF, 0xFF, 0xFF, 0xFF, 0xFF, 0xFF, 0xFF, 0x00, 0x00, 0x00, 0x00, 0x00, 0x00, 0x00, 0x80])) =
    ran 1 [0x00, 0x00, 0x00, 0x00, 0x00, 0x00, 0x00, 0x80] := by decide

/-- V-SEQ-4. -/
theorem test_step_invalid : view (step (st 8 [0x1A] 0 [])) = trapped 0 [] .invalidOpcode := by decide

/-- V-SEQ-9, from State.reset itself. -/
theorem test_step_empty_program : view (step State.reset) = trapped 0 [] .stackUnderflow := by decide

/-- V-SEQ-8: the ninth byte is left; RESULT is little-endian. -/
theorem test_final_extraction : (nextOf (step (st 24 [0] 1 [0xAA, 1, 2, 3, 4, 5, 6, 7, 8]))).map
    (fun u => (u.status, u.result, u.top, u.ip)) = some (.done, 0x0807060504030201, 0, 1) := by decide

/-- V-SEQ-7. -/
theorem test_final_extraction_seven : view (step (st 24 [0] 1 [1, 2, 3, 4, 5, 6, 7])) = trapped 1 [1, 2, 3, 4, 5, 6, 7] .stackUnderflow := by decide

/-- V-SEQ-10. -/
theorem test_stopped : nextOf (step { st 8 [0] 0 [] with status := .done }) = none ∧
    nextOf (step { st 8 [0] 0 [] with status := .faulted, err := .fault .invalidOpcode }) = none := by decide

/-- R13: a popped byte stays in the buffer. -/
theorem test_dead_byte_stays : (nextOf (exec .popb (st 8 [5] 0 [0xAB]))).map (fun u => u.stack.read 0) = some 0xAB := by decide

/-- A table word placed at reset runs next. -/
theorem test_fetchWord : view (step (State.reset.withFetchWord 24 0x123402)) = ran 3 [0x34, 0x12] := by decide

/-- Writing what an unlisted address reads as removes the cell; order of writes does not matter. -/
theorem test_memory_canonical : Memory.write (Memory.write [] 3 7) 3 0 = [] ∧
    Memory.write (Memory.write [] 5 1) 2 9 = Memory.write (Memory.write [] 2 9) 5 1 := by decide

/-- D10 codes at the ports. -/
theorem test_ports : ((step (st 8 [0x1A] 0 [])) |> nextOf).map (fun u => (u.ports.status, u.ports.err, u.ports.progAddr)) = some (2, 1, 0) := by decide

/-- R4: TW is 13 when C is 4096. -/
theorem test_topWidth : Config.default.topWidth = 13 ∧ Config.default.maxProgLen = 4294967295 := by decide

/-- P2 of Part 3, as text (R57). -/
theorem test_assemble : assembleText "PUSHDW 3 ; first\npushdw 0x04\n\nSUBDW" =
    some [4, 3, 0, 0, 0, 0, 0, 0, 0, 4, 4, 0, 0, 0, 0, 0, 0, 0, 0x11] := by decide

/-- R52 and R57: a negative number and a byte list. -/
theorem test_assemble_lists : assembleText "PUSHB -1\nPUSHSW [0x34, 18]" = some [1, 0xFF, 2, 0x34, 0x12] ∧ assembleText "NOP 3" = none := by decide

/-- R58: the listing ends with the fault. -/
theorem test_disassemble : disassemble [0x00, 0x02, 0x34, 0x12, 0x1A, 0] =
    [.instr .nop, .instr (.pushsw [0x34, 0x12]), .fault .invalidOpcode] ∧
    instrText (.pushsw [0x34, 0x12]) = "PUSHSW 0x1234".toList := by decide

/-! Witnesses: for each statement with hypotheses, a state and operands that meet them; one for each clause, at the
boundary of its range. `full` and `short` are reused where several statements have the same hypotheses. -/

theorem witness_ResetForgetsTheRunInProgress :
    (st 8 [1] 0 [5]).cfg = (st 8 [9] 1 []).cfg ∧ st 8 [1] 0 [5] ≠ st 8 [9] 1 [] := by decide

/-- The smallest parameters, with the longest program they admit. -/
theorem witness_StartSatisfiesInvariant : (Config.mk 1 1).Valid ∧ [(5 : Byte)].length ≤ (Config.mk 1 1).maxProgLen := by
  decide

theorem witness_StepKeepsInvariant : Inv (st 8 [0x01, 7] 0 []) ∧ ∃ t, step (st 8 [0x01, 7] 0 []) = .next t :=
  ⟨inv_of_checks (by decide), _, rfl⟩

theorem witness_StepRunsTheDecodedInstruction : (st 8 [0, 0x01, 7] 1 []).status = .running ∧
    decode ((st 8 [0, 0x01, 7] 1 []).prog.drop (st 8 [0, 0x01, 7] 1 []).ip) = .ok (.pushb [7], []) := by decide

theorem witness_RunningStatesTakeAStep : Inv (st 8 [0x19] 0 [1]) ∧ (st 8 [0x19] 0 [1]).status = .running :=
  ⟨inv_of_checks (by decide), rfl⟩

theorem witness_StoppedStatesTakeNoStep : { st 8 [] 0 [] with status := .done }.status ≠ .running ∧
    { st 8 [] 0 [] with status := .faulted }.status ≠ .running := by decide

theorem witness_DecodeEncodeRoundTrip : (Instr.pushdw [1, 2, 3, 4, 5, 6, 7, 8]).WellFormed ∧ Instr.divdw.WellFormed := by
  decide

theorem witness_DecodeAcceptsOnlyEncodings : decode [0x01, 2, 3] = .ok (.pushb [2], [3]) := by decide

theorem witness_DisassemblyInvertsAssembly : ∀ i ∈ [Instr.nop, .pushb [1], .halt], i.WellFormed := by decide

theorem witness_InstructionLengths : (Instr.pushw [1, 2, 3, 4]).WellFormed ∧ (∀ n imm, Instr.nop ≠ .push n imm) ∧
    opcode (.pushb [1]) = opcode (.pushb [2]) := by
  refine ⟨by decide, fun n imm => ?_, by decide⟩
  cases n <;> simp [Instr.push]

theorem witness_InstructionLengths_step : (st 8 [0x01, 7, 0] 0 []).status = .running ∧
    decode ((st 8 [0x01, 7, 0] 0 []).prog.drop (st 8 [0x01, 7, 0] 0 []).ip) = .ok (.pushb [7], [0]) ∧
    ∃ t, step (st 8 [0x01, 7, 0] 0 []) = .next t ∧ t.status = .running :=
  ⟨rfl, by decide, _, rfl, rfl⟩

theorem witness_InvalidOpcodeBytes : (0x1A : Byte).toNat = 26 ∧ (0x19 : Byte).toNat < 0x1A ∧
    ∀ i : Instr, opcode i ≠ 0x1A := by
  refine ⟨by decide, by decide, fun i => ?_⟩
  cases i <;> simp [opcode]

/-- One free byte, and the immediate is the program's last byte. -/
theorem witness_PushCompletes : Inv (st 8 [0x01, 7] 0 [1, 2, 3, 4, 5, 6, 7]) ∧ [(7 : Byte)].length = Width.b.bytes ∧
    (st 8 [0x01, 7] 0 [1, 2, 3, 4, 5, 6, 7]).ip + Width.b.bytes + 1 = 2 ∧
    (st 8 [0x01, 7] 0 [1, 2, 3, 4, 5, 6, 7]).top + Width.b.bytes + 1 = 8 :=
  ⟨inv_of_checks (by decide), by decide, by decide, by decide⟩

theorem witness_PushCompletes_dw : Inv (st 8 [4, 1, 2, 3, 4, 5, 6, 7, 8] 0 []) ∧
    (st 8 [4, 1, 2, 3, 4, 5, 6, 7, 8] 0 []).ip + Width.dw.bytes < 9 ∧
    (st 8 [4, 1, 2, 3, 4, 5, 6, 7, 8] 0 []).top + Width.dw.bytes < 8 :=
  ⟨inv_of_checks (by decide), by decide, by decide⟩

/-- The first missing byte is the one at `L`; the stack is full besides. -/
theorem witness_PushTrapsInOrder_truncated : [(7 : Byte)].length = Width.b.bytes ∧
    (st 8 [0x01] 0 [1, 2, 3, 4, 5, 6, 7, 8]).prog.length = (st 8 [0x01] 0 [1, 2, 3, 4, 5, 6, 7, 8]).ip + Width.b.bytes := by
  decide

theorem witness_PushTrapsInOrder_overflow : [(7 : Byte)].length = Width.b.bytes ∧
    (st 8 [0x01, 7] 0 [1, 2, 3, 4, 5, 6, 7, 8]).ip + Width.b.bytes < 2 ∧
    ((st 8 [0x01, 7] 0 [1, 2, 3, 4, 5, 6, 7, 8]).cfg.capacity : Int) =
      (st 8 [0x01, 7] 0 [1, 2, 3, 4, 5, 6, 7, 8]).top + Width.b.bytes := by decide

/-- Also meets the PUSH clauses of TruncatedProgramExactlyWhen. -/
theorem witness_PushStep_truncated : Inv (st 8 [0x02, 7] 0 []) ∧ (st 8 [0x02, 7] 0 []).status = .running ∧
    (st 8 [0x02, 7] 0 []).prog[(st 8 [0x02, 7] 0 []).ip]? = some (opcode (.push .sw [])) ∧
    (st 8 [0x02, 7] 0 []).prog.length = (st 8 [0x02, 7] 0 []).ip + Width.sw.bytes :=
  ⟨inv_of_checks (by decide), rfl, by decide, by decide⟩

/-- Also meets the first clause of StackOverflowExactlyWhen. -/
theorem witness_PushStep_overflow : Inv (st 2 [0x01, 7] 0 [1, 2]) ∧ (st 2 [0x01, 7] 0 [1, 2]).status = .running ∧
    (st 2 [0x01, 7] 0 [1, 2]).prog[(st 2 [0x01, 7] 0 [1, 2]).ip]? = some (opcode (.push .b [])) ∧
    (st 2 [0x01, 7] 0 [1, 2]).ip + Width.b.bytes + 1 = 2 ∧
    ((st 2 [0x01, 7] 0 [1, 2]).cfg.capacity : Int) = (st 2 [0x01, 7] 0 [1, 2]).top + Width.b.bytes :=
  ⟨inv_of_checks (by decide), rfl, by decide, by decide, by decide⟩

theorem witness_PushStep_completes : Inv (st 2 [0x01, 7] 0 [1]) ∧ (st 2 [0x01, 7] 0 [1]).status = .running ∧
    (st 2 [0x01, 7] 0 [1]).prog[(st 2 [0x01, 7] 0 [1]).ip]? = some (opcode (.push .b [])) ∧
    (st 2 [0x01, 7] 0 [1]).ip + Width.b.bytes + 1 = 2 ∧ (st 2 [0x01, 7] 0 [1]).top + Width.b.bytes + 1 = 2 :=
  ⟨inv_of_checks (by decide), rfl, by decide, by decide, by decide⟩

theorem witness_ImmediateIsProgRead : (st 8 [0x02, 7, 8] 0 []).fetch = .ok (.push .sw [7, 8], []) ∧
    (st 8 [0x02, 7, 8] 0 []).progRead 1 2 = some [7, 8] ∧ 1 < 2 := by decide

theorem witness_PopLowersTop_short : Inv (st 8 [6] 0 [1]) ∧ (st 8 [6] 0 [1]).top + 1 + 1 = Width.sw.bytes :=
  ⟨inv_of_checks (by decide), by decide⟩

theorem witness_PopLowersTop_enough : Inv (st 8 [6] 0 [1, 2]) ∧ (Width.sw.bytes : Int) = (st 8 [6] 0 [1, 2]).top + 1 :=
  ⟨inv_of_checks (by decide), by decide⟩

/-- One byte short of two operands: the first clause of the statements on ADD, SUB, MUL and DIV. -/
theorem witness_arith_short : Inv (st 8 [0] 0 [1, 2, 3]) ∧
    (st 8 [0] 0 [1, 2, 3]).top + 1 + 1 = 2 * Width.sw.bytes ∧ Width.sw ≠ .dw :=
  ⟨inv_of_checks (by decide), by decide, by decide⟩

/-- Exactly two operands, divisor not 0: the completing clauses, and OperandsAreLittleEndian. -/
theorem witness_arith_full : Inv (st 8 [0] 0 [1, 2, 3, 4]) ∧
    2 * (Width.sw.bytes : Int) = (st 8 [0] 0 [1, 2, 3, 4]).top + 1 ∧ (st 8 [0] 0 [1, 2, 3, 4]).operandB .sw ≠ 0 :=
  ⟨inv_of_checks (by decide), by decide, by decide⟩

theorem witness_DivNarrow_by_zero : Inv (st 8 [0] 0 [0, 0, 3, 4]) ∧
    2 * (Width.sw.bytes : Int) = (st 8 [0] 0 [0, 0, 3, 4]).top + 1 ∧ (st 8 [0] 0 [0, 0, 3, 4]).operandB .sw = 0 :=
  ⟨inv_of_checks (by decide), by decide, by decide⟩

theorem witness_DivDw_short : Inv (st 16 [0] 0 [1, 2, 3, 4, 5, 6, 7, 8, 9, 10, 11, 12, 13, 14, 15]) ∧
    (st 16 [0] 0 [1, 2, 3, 4, 5, 6, 7, 8, 9, 10, 11, 12, 13, 14, 15]).top + 1 + 1 = 16 :=
  ⟨inv_of_checks (by decide), by decide⟩

theorem witness_DivDw_by_zero : Inv (st 16 [0] 0 [0, 0, 0, 0, 0, 0, 0, 0, 1, 0, 0, 0, 0, 0, 0, 0]) ∧
    16 = (st 16 [0] 0 [0, 0, 0, 0, 0, 0, 0, 0, 1, 0, 0, 0, 0, 0, 0, 0]).top + 1 ∧
    (st 16 [0] 0 [0, 0, 0, 0, 0, 0, 0, 0, 1, 0, 0, 0, 0, 0, 0, 0]).operandB .dw = 0 :=
  ⟨inv_of_checks (by decide), by decide, by decide⟩

theorem witness_DivDw_completes : Inv (st 16 [0] 0 [2, 0, 0, 0, 0, 0, 0, 0, 1, 0, 0, 0, 0, 0, 0, 0]) ∧
    16 = (st 16 [0] 0 [2, 0, 0, 0, 0, 0, 0, 0, 1, 0, 0, 0, 0, 0, 0, 0]).top + 1 ∧
    (st 16 [0] 0 [2, 0, 0, 0, 0, 0, 0, 0, 1, 0, 0, 0, 0, 0, 0, 0]).operandB .dw ≠ 0 :=
  ⟨inv_of_checks (by decide), by decide, by decide⟩

theorem witness_ArithIsPopPopPush : Inv (st 8 [0] 0 [5, 2]) ∧
    ∃ t, (st 8 [0] 0 [5, 2]).arith .div .b = .ok t := ⟨inv_of_checks (by decide), _, rfl⟩

theorem witness_ArithIsPopPopPush_short : (st 8 [0] 0 [5]).arith .div .b = .error (.raise .stackUnderflow) := rfl

/-- Operands swapped; the divisor of the first is 0, its dividend is not. -/
theorem witness_SwappedOperands : Inv (st 8 [0] 0 [0, 5]) ∧ Inv (st 8 [0] 0 [5, 0]) ∧
    2 * (Width.b.bytes : Int) = (st 8 [0] 0 [0, 5]).top + 1 ∧ (st 8 [0] 0 [5, 0]).top = (st 8 [0] 0 [0, 5]).top ∧
    (st 8 [0] 0 [5, 0]).operandA .b = (st 8 [0] 0 [0, 5]).operandB .b ∧
    (st 8 [0] 0 [5, 0]).operandB .b = (st 8 [0] 0 [0, 5]).operandA .b ∧
    (st 8 [0] 0 [0, 5]).operandB .b = 0 ∧ (st 8 [0] 0 [0, 5]).operandA .b ≠ 0 :=
  ⟨inv_of_checks (by decide), inv_of_checks (by decide), by decide, by decide, by decide, by decide, by decide, by decide⟩

theorem witness_PushThenPopRoundTrip : Inv (st 3 [2, 7, 8] 0 [1]) ∧ [(7 : Byte), 8].length = Width.sw.bytes ∧
    (st 3 [2, 7, 8] 0 [1]).top + Width.sw.bytes + 1 = 3 ∧ (st 3 [2, 7, 8] 0 [1]).ip + Width.sw.bytes + 1 = 3 :=
  ⟨inv_of_checks (by decide), by decide, by decide, by decide⟩

theorem witness_NarrowPopTakesTheHighBytes : Inv (st 8 [0] 0 []) ∧ Width.b.bytes ≤ Width.w.bytes ∧
    ∃ s1, (st 8 [0] 0 []).push .w (leBytes 4 0x11223344) = .ok s1 := ⟨inv_of_checks (by decide), by decide, _, rfl⟩

theorem witness_InvalidOpcodeExactlyWhen : Inv (st 8 [0x1A] 0 []) ∧ (st 8 [0x1A] 0 []).status = .running ∧
    (st 8 [0x1A] 0 []).ip < 1 ∧ (∀ i : Instr, (st 8 [0x1A] 0 []).prog[(st 8 [0x1A] 0 []).ip]? ≠ some (opcode i)) ∧
    ∃ t, step (st 8 [0x1A] 0 []) = .next t ∧ t.err = .fault .invalidOpcode := by
  refine ⟨inv_of_checks (by decide), rfl, by decide, fun i => ?_, _, rfl, rfl⟩
  cases i <;> simp [opcode, st, State.start]

theorem witness_TruncatedProgramExactlyWhen :
    ∃ t, step (st 8 [0x02, 7] 0 []) = .next t ∧ t.err = .fault .truncatedProgram := ⟨_, rfl, rfl⟩

theorem witness_StackOverflowExactlyWhen :
    ∃ t, step (st 2 [0x01, 7] 0 [1, 2]) = .next t ∧ t.err = .fault .stackOverflow := ⟨_, rfl, rfl⟩

/-- The three ways to be short, each one byte short, and a step that reports it. -/
theorem witness_StackUnderflowExactlyWhen : (st 8 [0] 1 [1, 2, 3, 4, 5, 6, 7]).status = .running ∧
    (st 8 [0x05] 0 []).status = .running ∧ (st 8 [0x0A] 0 [1]).status = .running ∧
    (st 8 [0] 1 [1, 2, 3, 4, 5, 6, 7]).prog.length = 1 ∧ Inv (st 8 [0] 1 [1, 2, 3, 4, 5, 6, 7]) ∧
    (st 8 [0] 1 [1, 2, 3, 4, 5, 6, 7]).top + 1 + 1 = 8 ∧ Inv (st 8 [0x05] 0 []) ∧
    (st 8 [0x05] 0 []).prog[(st 8 [0x05] 0 []).ip]? = some (opcode (.pop .b)) ∧
    (st 8 [0x05] 0 []).top + 1 + 1 = Width.b.bytes ∧ Inv (st 8 [0x0A] 0 [1]) ∧
    (st 8 [0x0A] 0 [1]).prog[(st 8 [0x0A] 0 [1]).ip]? = some (opcode (.arith .add .b)) ∧
    (st 8 [0x0A] 0 [1]).top + 1 + 1 = 2 * Width.b.bytes ∧
    ∃ t, step (st 8 [0x0A] 0 [1]) = .next t ∧ t.err = .fault .stackUnderflow :=
  ⟨rfl, rfl, rfl, rfl, inv_of_checks (by decide), by decide, inv_of_checks (by decide), by decide, by decide,
    inv_of_checks (by decide), by decide, by decide, _, rfl, rfl⟩

theorem witness_DivideByZeroExactlyWhen : Inv (st 8 [0x16] 0 [0, 5]) ∧ (st 8 [0x16] 0 [0, 5]).status = .running ∧
    (st 8 [0x16] 0 [0, 5]).prog[(st 8 [0x16] 0 [0, 5]).ip]? = some (opcode (.arith .div .b)) ∧
    2 * (Width.b.bytes : Int) = (st 8 [0x16] 0 [0, 5]).top + 1 ∧ (st 8 [0x16] 0 [0, 5]).operandB .b = 0 ∧
    ∃ t, step (st 8 [0x16] 0 [0, 5]) = .next t ∧ t.err = .fault .divideByZero :=
  ⟨inv_of_checks (by decide), rfl, by decide, by decide, by decide, _, rfl, rfl⟩

theorem witness_DivideByZero_zero_dividend : Inv (st 8 [0x16] 0 [5, 0]) ∧ (st 8 [0x16] 0 [5, 0]).status = .running ∧
    (st 8 [0x16] 0 [5, 0]).prog[(st 8 [0x16] 0 [5, 0]).ip]? = some (opcode (.arith .div .b)) ∧
    2 * (Width.b.bytes : Int) = (st 8 [0x16] 0 [5, 0]).top + 1 ∧
    (st 8 [0x16] 0 [5, 0]).operandA .b = 0 ∧ (st 8 [0x16] 0 [5, 0]).operandB .b ≠ 0 :=
  ⟨inv_of_checks (by decide), rfl, by decide, by decide, by decide, by decide⟩

/-- Also meets RunEndsOnlyWhereTheSpecSays and IpStrictlyIncreases where a run ends in a fault. -/
theorem witness_FaultEntry : Inv (st 8 [0x05] 0 []) ∧ (st 8 [0x05] 0 []).status = .running ∧
    ∃ t, step (st 8 [0x05] 0 []) = .next t ∧ t.status = .faulted := ⟨inv_of_checks (by decide), rfl, _, rfl, rfl⟩

theorem witness_FinalExtraction_short : Inv (st 8 [0] 1 [1, 2, 3, 4, 5, 6, 7]) ∧
    (st 8 [0] 1 [1, 2, 3, 4, 5, 6, 7]).status = .running ∧ (st 8 [0] 1 [1, 2, 3, 4, 5, 6, 7]).prog.length = 1 ∧
    (st 8 [0] 1 [1, 2, 3, 4, 5, 6, 7]).top + 1 = 7 := ⟨inv_of_checks (by decide), rfl, rfl, by decide⟩

/-- Also meets RunEndsOnlyWhereTheSpecSays where a run ends DONE with a new RESULT. -/
theorem witness_FinalExtraction_done : Inv (st 8 [0] 1 [1, 2, 3, 4, 5, 6, 7, 8]) ∧
    (st 8 [0] 1 [1, 2, 3, 4, 5, 6, 7, 8]).status = .running ∧ (st 8 [0] 1 [1, 2, 3, 4, 5, 6, 7, 8]).prog.length = 1 ∧
    (st 8 [0] 1 [1, 2, 3, 4, 5, 6, 7, 8]).top + 1 = 8 ∧
    ∃ t, step (st 8 [0] 1 [1, 2, 3, 4, 5, 6, 7, 8]) = .next t ∧ t.status = .done ∧
      t.result ≠ (st 8 [0] 1 [1, 2, 3, 4, 5, 6, 7, 8]).result :=
  ⟨inv_of_checks (by decide), rfl, rfl, by decide, _, rfl, rfl, by decide⟩

/-- Also meets ProgramAndParametersNeverChange, and IpStrictlyIncreases where the run goes on. -/
theorem witness_OnlyLiveBytesAreWritten : Inv (st 8 [0x01, 7] 0 []) ∧ (st 8 [0x01, 7] 0 []).status = .running ∧
    ∃ t, step (st 8 [0x01, 7] 0 []) = .next t ∧ t.stack.read 0 ≠ (st 8 [0x01, 7] 0 []).stack.read 0 ∧
      t.status = .running := ⟨inv_of_checks (by decide), rfl, _, rfl, by decide, rfl⟩

theorem witness_EveryRunEnds : Inv (st 8 [0x00, 0x00] 1 []) ∧ (st 8 [0x00, 0x00] 1 []).status = .running ∧
    (Config.mk 1 1).Valid ∧ [(0 : Byte)].length ≤ (Config.mk 1 1).maxProgLen :=
  ⟨inv_of_checks (by decide), rfl, by decide, by decide⟩

/-- Two states that differ in a dead byte and in RESULT. -/
theorem witness_DeadBytes : Inv (st 8 [0x05] 0 [7]) ∧
    Inv { st 8 [0x05] 0 [7] with stack := [(0, 7), (1, 9)], result := 3 } ∧
    SameLive (st 8 [0x05] 0 [7]) { st 8 [0x05] 0 [7] with stack := [(0, 7), (1, 9)], result := 3 } ∧
    (∃ t, step (st 8 [0x05] 0 [7]) = .next t) ∧ st 8 [0x05] 0 [7] ≠
      { st 8 [0x05] 0 [7] with stack := [(0, 7), (1, 9)], result := 3 } := by
  refine ⟨inv_of_checks (by decide), inv_of_checks (by decide), ⟨rfl, rfl, rfl, rfl, fun a ha => ?_, rfl, rfl, ?_⟩,
    ⟨_, rfl⟩, by decide⟩
  · have h0 : a = 0 := by simp [st] at ha; omega
    subst h0
    rfl
  · intro h
    cases h

theorem witness_DeadBytes_stopped : Inv { st 8 [] 0 [] with status := .done } ∧
    step { st 8 [] 0 [] with status := .done } = .fault .notRunning := ⟨inv_of_checks (by decide), rfl⟩

theorem witness_PeekDebug : Inv (st 8 [0x01, 7] 0 [1]) ∧ (0 : Int) = (st 8 [0x01, 7] 0 [1]).top ∧
    (∃ t, exec (.push .b [7]) (st 8 [0x01, 7] 0 [1]) = .next t ∧ t.err ≠ .fault .truncatedProgram ∧
      t.err ≠ .fault .stackOverflow) ∧
    ∃ t, exec (.pop .b) (st 8 [0x01, 7] 0 [1]) = .next t ∧ t.err ≠ .fault .stackUnderflow :=
  ⟨inv_of_checks (by decide), by decide, ⟨_, rfl, by decide, by decide⟩, _, rfl, by decide⟩

/-- `ip` at `L_MAX`, `top` at `C - 1` with `C` a power of two; and a smallest width. -/
theorem witness_RegistersFitTheirWidths :
    Inv { st 4 [0, 0, 0] 3 [1, 2, 3, 4] with cfg := { capacity := 4, ipWidth := 2 } } ∧
    (Config.mk 4 2).Valid ∧ (Config.mk 4 2).maxProgLen = 3 ∧ (4 : Nat) ≤ 2 ^ (3 - 1) :=
  ⟨inv_of_checks (by decide), by decide, by decide, by decide⟩

theorem witness_ImmediateNumbersAssemble : immOfInt .b 255 = some [0xFF] ∧ immOfInt .b 0 = some [0] ∧
    immOfInt .b (-1) = some [0xFF] ∧ immOfInt .b (-128) = some [0x80] ∧ immOfInt .b (-129) = none ∧
    immOfInt .b 256 = none := by decide

theorem witness_IllFormedTermsAreRefused : ¬ (Instr.pushb [1, 2]).WellFormed := by decide

theorem witness_FetchWordRunsNext : decodeTableWord 16 0x0701 = some (.pushb [7]) := by decide

end Sys2Proof.Tests
end

/-! Proofs about the encoding (R50): the immediate width `W` of each shape of instruction, where decoding leaves off,
and where a non-faulting step leaves `ip`. -/

namespace Sys2Proof

/-- `W` as a row of the opcode map gives it, with no instruction at hand (R50). -/
def Shape.immWidth : Shape → Nat
  | .zero _ => 0
  | .push n => n.bytes

/-- `W` is read from the opcode's row alone. -/
theorem shape_immWidth (i : Instr) : (Laws.shape i).immWidth = i.immWidth := by cases i <;> rfl

theorem immWidth_eq_of_opcode_eq {i j : Instr} (h : opcode i = opcode j) : i.immWidth = j.immWidth := by
  have hshape : Laws.shape i = Laws.shape j := by
    apply Option.some.inj
    rw [← shapeOf_opcode, ← shapeOf_opcode, h]
  rw [← shape_immWidth, ← shape_immWidth, hshape]

@[simp] theorem Instr.immWidth_push (n : Width) (imm : List Byte) : (Instr.push n imm).immWidth = n.bytes := by
  cases n <;> rfl

@[simp] theorem Instr.immWidth_pop (n : Width) : (Instr.pop n).immWidth = 0 := by cases n <;> rfl

@[simp] theorem Instr.imm_pop (n : Width) : (Instr.pop n).imm = [] := by cases n <;> rfl

@[simp] theorem Instr.immWidth_arith (o : ArithOp) (n : Width) : (Instr.arith o n).immWidth = 0 := by
  cases o <;> cases n <;> rfl

@[simp] theorem Instr.imm_arith (o : ArithOp) (n : Width) : (Instr.arith o n).imm = [] := by
  cases o <;> cases n <;> rfl

/-- Format Z (R51): only a PUSH has an immediate. -/
theorem Instr.no_imm_of_not_push {i : Instr} (h : ∀ n imm, i ≠ .push n imm) : i.immWidth = 0 ∧ i.imm = [] := by
  rcases Machine.instr_shapes i with rfl | rfl | ⟨n, imm, rfl⟩ | ⟨n, rfl⟩ | ⟨o, n, rfl⟩
  · exact ⟨rfl, rfl⟩
  · exact ⟨rfl, rfl⟩
  · exact absurd rfl (h n imm)
  · exact ⟨immWidth_pop n, imm_pop n⟩
  · exact ⟨immWidth_arith o n, imm_arith o n⟩

theorem Width.bytes_mem (n : Width) : n.bytes ∈ [1, 2, 4, 8] := by cases n <;> decide

theorem Instr.immWidth_mem (i : Instr) : i.immWidth ∈ [0, 1, 2, 4, 8] := by
  rw [← shape_immWidth]
  cases Laws.shape i with
  | zero j => exact List.mem_cons_self
  | push n => exact List.mem_cons_of_mem 0 n.bytes_mem

/-- The five instruction lengths of R50. -/
theorem encode_length_mem {i : Instr} (h : i.WellFormed) : (encode i).length ∈ [1, 2, 3, 5, 9] := by
  have hlen : (encode i).length = i.immWidth + 1 := by rw [encode, List.length_cons, h]
  rw [hlen]
  exact List.mem_map_of_mem (f := (· + 1)) i.immWidth_mem

/-- Decoding takes the opcode byte and `W` bytes, and leaves every byte after them (R50, R52). -/
theorem decode_ok_rest {p rest : List Byte} {i : Instr} (h : decode p = .ok (i, rest)) :
    rest = p.drop (1 + i.immWidth) := by
  cases p with
  | nil => cases h
  | cons op tl =>
    rw [Nat.add_comm, List.drop_succ_cons]
    cases hop : shapeOf op with
    | none => rw [decode_invalid hop] at h; cases h
    | some sh =>
      rcases shapeOf_some hop with ⟨j, rfl, -, -, hw⟩ | ⟨n, rfl, -⟩
      · rw [decode_zero hop] at h
        cases h
        rw [hw, List.drop_zero]
      · rw [decode_push hop] at h
        split at h
        · cases h
        · cases h
          rw [Instr.immWidth_push]

end Sys2Proof

namespace Sys2Proof.Machine

/-- A state that fault entry leaves is not `RUNNING` (R147). -/
theorem State.status_ne_running_of_next_raised {s t : State} {k : FaultKind}
    (h : (.next (s.raised k) : Host.Outcome State Fault Refusal) = .next t) : t.status ≠ .running := by
  cases h
  simp

theorem pushImm_ip {n : Width} {imm : List Byte} {s t : State} (h : pushImm n imm s = .next t)
    (hr : t.status = .running) : t.ip = s.ip + 1 + n.bytes := by
  rcases pushImm_cases n imm s with ⟨-, he⟩ | ⟨-, -, he⟩ | ⟨-, -, -, he⟩ | ⟨-, -, -, -, he⟩ | ⟨-, -, he⟩ <;>
    rw [he] at h
  · cases h
  · exact absurd hr (State.status_ne_running_of_next_raised h)
  · exact absurd hr (State.status_ne_running_of_next_raised h)
  · cases h
    rfl
  · cases h

theorem popDiscard_ip {n : Width} {s t : State} (h : popDiscard n s = .next t) (hr : t.status = .running) :
    t.ip = s.ip + 1 := by
  rcases popDiscard_cases n s with ⟨-, he⟩ | ⟨-, -, he⟩ | ⟨-, he⟩ <;> rw [he] at h
  · exact absurd hr (State.status_ne_running_of_next_raised h)
  · cases h
    rfl
  · cases h

theorem arithStep_ip {o : ArithOp} {n : Width} {s t : State} (h : arithStep o n s = .next t)
    (hr : t.status = .running) : t.ip = s.ip + 1 := by
  rcases arithStep_cases o n s with ⟨-, he⟩ | ⟨-, -, -, -, he⟩ | ⟨-, -, -, he⟩ | ⟨-, he⟩ <;> rw [he] at h
  · exact absurd hr (State.status_ne_running_of_next_raised h)
  · exact absurd hr (State.status_ne_running_of_next_raised h)
  · cases h
    rfl
  · cases h

/-- An instruction that raises no fault advances `ip` past its opcode byte and its `W` immediate bytes (R75). -/
theorem exec_ip {i : Instr} {s t : State} (h : exec i s = .next t) (hr : t.status = .running) :
    t.ip = s.ip + 1 + i.immWidth := by
  rcases instr_shapes i with rfl | rfl | ⟨n, imm, rfl⟩ | ⟨n, rfl⟩ | ⟨o, n, rfl⟩
  · cases h
    rfl
  · cases h
    rfl
  · rw [exec_push] at h
    rw [Instr.immWidth_push]
    exact pushImm_ip h hr
  · rw [exec_pop] at h
    rw [Instr.immWidth_pop]
    exact popDiscard_ip h hr
  · rw [exec_arith] at h
    rw [Instr.immWidth_arith]
    exact arithStep_ip h hr

/-- R70's dispatch, where the bytes at `ip` decode. -/
theorem step_eq_exec_of_decode {s : State} {i : Instr} {rest : List Byte} (hs : s.status = .running)
    (hd : decode (s.prog.drop s.ip) = .ok (i, rest)) : step s = exec i s := by
  have hfetch : s.fetch = .ok (i, rest) := hd
  rcases step_cases s with ⟨hns, -⟩ | ⟨-, hend, -⟩ | ⟨-, -, j, r, hf, he⟩ | ⟨-, -, op, hf, -⟩ | ⟨-, -, n, hf, -⟩
  · exact absurd hs hns
  · rw [List.drop_eq_nil_of_le hend] at hd
    cases hd
  · rw [hfetch] at hf
    cases hf
    exact he
  · rw [hfetch] at hf
    cases hf
  · rw [hfetch] at hf
    cases hf

end Sys2Proof.Machine

section
open Sys2Proof Sys2Proof.Machine

/-- Settles O12: `W` is read from the opcode's row of R53, and decoding and execution both move past `1 + W` bytes. -/
theorem instructionLengths : Obligations.InstructionLengths := by
  unfold Obligations.InstructionLengths
  refine ⟨fun i hi => ⟨rfl, rfl, hi, encode_length_mem hi⟩, Instr.immWidth_push,
    fun i => Instr.no_imm_of_not_push, fun i j => immWidth_eq_of_opcode_eq, fun s t i rest hs hd => ⟨?_, ?_⟩⟩
  · rw [decode_ok_rest hd, List.drop_drop, Nat.add_assoc]
  · intro hstep hr
    rw [step_eq_exec_of_decode hs hd] at hstep
    exact exec_ip hstep hr

end

/-! Proofs about the sequencer (R72): the instructions that only advance `ip`. -/

namespace Sys2Proof.Machine

/-- The advance of an instruction with no immediate moves `ip` past the opcode byte alone (R75 with `W = 0`). -/
theorem State.advance_zero (s : State) : s.advance 0 = { s with ip := s.ip + 1 } := rfl

theorem exec_nop (s : State) : exec .nop s = .next (s.advance 0) := rfl

end Sys2Proof.Machine

section
open Sys2Proof Sys2Proof.Machine

/-- Settles O14: the row of R53 gives the byte `0x00`, and R72's effect is the advance past it. -/
theorem nopAdvancesIp : Obligations.NopAdvancesIp := by
  unfold Obligations.NopAdvancesIp
  refine ⟨rfl, fun s => ?_⟩
  rw [exec_nop, State.advance_zero]

end

/-! Proofs about PUSH and POP (R90 to R98): what stands at `ip` when the byte there is a PUSH opcode, and what the two
families do in a state that satisfies `Inv`. -/

namespace Sys2Proof

/-- A PUSH opcode selects its width's row of R53, whatever immediate follows. -/
theorem shapeOf_opcode_push (n : Width) (imm : List Byte) : shapeOf (opcode (.push n imm)) = some (.push n) := by
  cases n <;> exact shapeOf_opcode _

end Sys2Proof

namespace Sys2Proof.Machine

theorem State.fetchBytes_of_getElem? {s : State} {op : Byte} (h : s.prog[s.ip]? = some op) :
    s.fetchBytes = op :: s.prog.drop (s.ip + 1) := by
  obtain ⟨hlt, hop⟩ := List.getElem?_eq_some_iff.mp h
  rw [State.fetchBytes, List.drop_eq_getElem_cons hlt, hop]

/-- A PUSH whose immediate runs past the end of the program does not decode (R56). -/
theorem State.fetch_push_truncated {s : State} {n : Width} (h : s.prog[s.ip]? = some (opcode (.push n [])))
    (hl : s.prog.length ≤ s.ip + n.bytes) : s.fetch = .error (.truncated n) := by
  have hip := (List.getElem?_eq_some_iff.mp h).1
  rw [State.fetch, State.fetchBytes_of_getElem? h, decode_push (shapeOf_opcode_push n []), List.length_drop,
    if_pos (by omega)]

/-- A PUSH whose immediate stands inside the program carries the `N` program bytes after the opcode (R52). -/
theorem State.fetch_push_ok {s : State} {n : Width} (h : s.prog[s.ip]? = some (opcode (.push n [])))
    (hl : s.ip + n.bytes < s.prog.length) :
    s.fetch = .ok (.push n ((s.prog.drop (s.ip + 1)).take n.bytes), (s.prog.drop (s.ip + 1)).drop n.bytes) := by
  rw [State.fetch, State.fetchBytes_of_getElem? h, decode_push (shapeOf_opcode_push n []), List.length_drop,
    if_neg (by omega)]

theorem State.immediate_length {s : State} {n : Width} (hl : s.ip + n.bytes < s.prog.length) :
    ((s.prog.drop (s.ip + 1)).take n.bytes).length = n.bytes := by
  rw [List.length_take, List.length_drop]
  omega

/-- R56 at the level of a step: an immediate found truncated by the fetch raises `TruncatedProgram`. -/
theorem step_of_fetch_truncated {s : State} {n : Width} (hs : s.status = .running)
    (hf : s.fetch = .error (.truncated n)) : step s = .next (s.raised .truncatedProgram) := by
  rcases step_cases s with ⟨hns, -⟩ | ⟨-, hend, -⟩ | ⟨-, -, i, rest, hf', -⟩ | ⟨-, -, op, hf', -⟩ | ⟨-, -, -, -, he⟩
  · exact absurd hs hns
  · rw [State.fetch, State.fetchBytes, List.drop_eq_nil_of_le hend] at hf
    cases hf
  · rw [hf] at hf'
    cases hf'
  · rw [hf] at hf'
    cases hf'
  · exact he

/-- A step at a PUSH opcode with its whole immediate runs that PUSH (R70, R52). -/
theorem step_eq_pushImm {s : State} {n : Width} (hs : s.status = .running)
    (h : s.prog[s.ip]? = some (opcode (.push n []))) (hl : s.ip + n.bytes < s.prog.length) :
    step s = pushImm n ((s.prog.drop (s.ip + 1)).take n.bytes) s := by
  rw [step_eq_exec_of_decode hs (State.fetch_push_ok h hl), exec_push]

theorem State.push_overflow {s : State} {n : Width} {b : List Byte} (hc : (s.cfg.capacity : Int) ≤ s.top + n.bytes) :
    s.push n b = .error (.raise .stackOverflow) := if_pos hc

/-- Where a PUSH overflows, in every state: the capacity is checked before any byte is stored (R35, R146). -/
theorem pushImm_overflow {n : Width} {imm : List Byte} {s : State} (hi : imm.length = n.bytes)
    (hl : s.ip + n.bytes < s.prog.length) (hc : (s.cfg.capacity : Int) ≤ s.top + n.bytes) :
    pushImm n imm s = .next (s.raised .stackOverflow) := by
  rw [pushImm, if_neg (not_not_intro hi), if_neg (Nat.not_le.mpr hl), State.push_overflow hc]
  rfl

/-- Storing `N` bytes above the top and moving `top` and `ip` past them is a push of those bytes (R35, R90). -/
theorem State.appends_writeBytes {s : State} {n : Width} {imm : List Byte} (hwf : s.stack.wf) (htop : -1 ≤ s.top)
    (hi : imm.length = n.bytes) :
    Appends s (({ s with stack := s.stack.writeBytes s.pushAddr.toNat imm }.setTop (s.top + n.bytes)).advance n.bytes)
      n imm := by
  refine ⟨rfl, ?_, fun a ha => ?_⟩
  · rw [← hi]
    exact Memory.readBytes_writeBytes _ hwf _ imm
  · refine Memory.read_writeBytes_outside _ hwf _ imm a ?_
    have haddr : 0 ≤ s.pushAddr := by unfold State.pushAddr; omega
    omega

/-- Where a PUSH completes, with its effect and frame (R90). -/
theorem pushImm_appends {n : Width} {imm : List Byte} {s : State} (hinv : Inv s) (hi : imm.length = n.bytes)
    (hl : s.ip + n.bytes < s.prog.length) (hc : s.top + n.bytes < s.cfg.capacity) :
    ∃ t, pushImm n imm s = .next t ∧ Appends s t n imm := by
  have htop := hinv.stack.neg_one_le
  rcases pushImm_cases n imm s with ⟨hne, -⟩ | ⟨-, ht, -⟩ | ⟨-, -, hfull, -⟩ | ⟨-, -, -, -, he⟩ | ⟨-, hneg, -⟩
  · exact absurd hi hne
  · omega
  · omega
  · exact ⟨_, he, State.appends_writeBytes hinv.mem_wf htop hi⟩
  · omega

/-- Where a POP underflows (R90). -/
theorem popDiscard_underflow {n : Width} {s : State} (hinv : Inv s) (hn : s.top + 1 < n.bytes) :
    popDiscard n s = .next (s.raised .stackUnderflow) := by
  rcases popDiscard_cases n s with ⟨-, he⟩ | ⟨henough, -⟩ | ⟨hover, -⟩
  · exact he
  · omega
  · exact absurd hinv.stack.lt_capacity (Int.not_lt.mpr hover)

/-- Where a POP completes: it moves `top` and `ip` and writes no byte (R90, R13). -/
theorem popDiscard_ok {n : Width} {s : State} (hinv : Inv s) (hn : (n.bytes : Int) ≤ s.top + 1) :
    popDiscard n s = .next ((s.setTop (s.top - n.bytes)).advance 0) := by
  rcases popDiscard_cases n s with ⟨hshort, -⟩ | ⟨-, -, he⟩ | ⟨hover, -⟩
  · omega
  · exact he
  · exact absurd hinv.stack.lt_capacity (Int.not_lt.mpr hover)

end Sys2Proof.Machine

section
open Sys2Proof Sys2Proof.Machine

/-- Settles O18: the fetch gives the PUSH its `N` program bytes or finds them truncated; with them the PUSH overflows
or stores them above the old top. -/
theorem pushStepTakesBytesFromProgram : Obligations.PushStepTakesBytesFromProgram := by
  unfold Obligations.PushStepTakesBytesFromProgram
  refine ⟨rfl, rfl, rfl, rfl, fun n s hinv hs hop => ⟨fun hl => ?_, fun hl hc => ?_, fun hl hc => ?_⟩⟩
  · exact step_of_fetch_truncated hs (State.fetch_push_truncated hop hl)
  · rw [step_eq_pushImm hs hop hl]
    exact pushImm_overflow (State.immediate_length hl) hl hc
  · rw [step_eq_pushImm hs hop hl]
    exact pushImm_appends hinv (State.immediate_length hl) hl hc

/-- Settles O20: with `N` live bytes a POP only moves `top` and `ip`; with fewer it is fault entry. -/
theorem popLowersTop : Obligations.PopLowersTop := by
  unfold Obligations.PopLowersTop
  refine ⟨rfl, rfl, rfl, rfl, fun n s hinv => ⟨fun hn => ?_, fun hn => ?_⟩⟩
  · rw [exec_pop]
    exact popDiscard_underflow hinv hn
  · rw [exec_pop]
    exact popDiscard_ok hinv hn

end

/-! Proofs about the arithmetic instructions (R110 to R136): the value each operator stores as a number, and what an
arithmetic instruction does in a state that satisfies `Inv`. -/

namespace Sys2Proof

theorem Width.bytes_le_four {n : Width} (h : n ≠ .dw) : n.bytes ≤ 4 := by
  cases n with
  | b => decide
  | sw => decide
  | w => decide
  | dw => exact absurd rfl h

end Sys2Proof

namespace Sys2Proof.Machine

theorem State.operandA_lt (s : State) (n : Width) : s.operandA n < 2 ^ (8 * n.bytes) := by
  have h := leNat_lt (s.stack.readBytes (s.addrA n).toNat n.bytes)
  rwa [Memory.readBytes_length] at h

theorem State.operandB_lt (s : State) (n : Width) : s.operandB n < 2 ^ (8 * n.bytes) := by
  have h := leNat_lt (s.stack.readBytes (s.addrB n).toNat n.bytes)
  rwa [Memory.readBytes_length] at h

theorem State.zext64_operandA (s : State) (n : Width) : (zext64 (s.operandA n)).toNat = s.operandA n :=
  zext64_leNat _ (by rw [Memory.readBytes_length]; exact n.bytes_le)

theorem State.zext64_operandB (s : State) (n : Width) : (zext64 (s.operandB n)).toNat = s.operandB n :=
  zext64_leNat _ (by rw [Memory.readBytes_length]; exact n.bytes_le)

/-- A pattern below the sign bit reads the same signed as unsigned (R6). -/
theorem signed64_of_lt {v : Word64} (h : v.toNat < 2 ^ 63) : signed64 v = v.toNat := if_pos h

/-- Of two values that are not negative the truncated quotient is the floor quotient. -/
theorem tdiv_natCast (a b : Nat) : tdiv a b = ((a / b : Nat) : Int) := by
  rw [tdiv_eq, Int.ofNat_tdiv]

/-- Wrapping at 64 bits loses nothing that truncation to `N` bytes keeps (R112, R113). -/
theorem truncN_wrap64 (n : Width) (i : Int) : (truncN n.bytes (wrap64 i) : Int) = i % 2 ^ (8 * n.bytes) := by
  have hdvd : (2 ^ (8 * n.bytes) : Int) ∣ 2 ^ 64 := pow_dvd_pow 2 (by have := n.bytes_le; omega)
  rw [truncN, Int.natCast_mod, wrap64_toNat, Nat.cast_pow, Nat.cast_ofNat, Int.emod_emod_of_dvd _ hdvd]

theorem truncN_wrap64_natCast (n : Width) (v : Nat) : truncN n.bytes (wrap64 v) = v % 2 ^ (8 * n.bytes) := by
  exact_mod_cast truncN_wrap64 n v

/-- The stored bytes, read little-endian, are the truncated result of the unit (R113, R117). -/
theorem State.leNat_arithBytes (s : State) (o : ArithOp) (n : Width) :
    leNat (s.arithBytes o n) = truncN n.bytes (alu o (zext64 (s.operandA n)) (zext64 (s.operandB n))) := by
  rw [State.arithBytes, leNat_leBytes, truncN, Nat.mod_mod]

theorem State.leNat_arithBytes_add (s : State) (n : Width) :
    leNat (s.arithBytes .add n) = (s.operandA n + s.operandB n) % 2 ^ (8 * n.bytes) := by
  rw [s.leNat_arithBytes, alu, s.zext64_operandA, s.zext64_operandB, ← Nat.cast_add, truncN_wrap64_natCast]

theorem State.leNat_arithBytes_sub (s : State) (n : Width) :
    (leNat (s.arithBytes .sub n) : Int) = ((s.operandA n : Int) - s.operandB n) % 2 ^ (8 * n.bytes) := by
  rw [s.leNat_arithBytes, alu, s.zext64_operandA, s.zext64_operandB, truncN_wrap64]

theorem State.leNat_arithBytes_mul (s : State) (n : Width) :
    leNat (s.arithBytes .mul n) = (s.operandA n * s.operandB n) % 2 ^ (8 * n.bytes) := by
  rw [s.leNat_arithBytes, alu, s.zext64_operandA, s.zext64_operandB, ← Nat.cast_mul, truncN_wrap64_natCast]

/-- R132 to R134: at most 4 bytes wide, both operands stand below the sign bit of the unit, so its signed division is
the unsigned one, and the quotient, no greater than A, needs no truncation. -/
theorem State.leNat_arithBytes_div_narrow (s : State) {n : Width} (hn : n ≠ .dw) :
    leNat (s.arithBytes .div n) = s.operandA n / s.operandB n := by
  have hA := s.operandA_lt n
  have hB := s.operandB_lt n
  have hpow : 2 ^ (8 * n.bytes) ≤ 2 ^ 32 :=
    Nat.pow_le_pow_right (by decide) (by have := Width.bytes_le_four hn; omega)
  rw [s.leNat_arithBytes, alu, signed64_of_lt (by rw [s.zext64_operandA]; omega),
    signed64_of_lt (by rw [s.zext64_operandB]; omega), s.zext64_operandA, s.zext64_operandB, tdiv_natCast,
    truncN_wrap64_natCast, Nat.mod_eq_of_lt (Nat.lt_of_le_of_lt (Nat.div_le_self _ _) hA)]

/-- At every width a dividend of 0 gives the quotient 0. -/
theorem State.leNat_arithBytes_div_of_zero {s : State} {n : Width} (hA : s.operandA n = 0) :
    leNat (s.arithBytes .div n) = 0 := by
  have hzero : alu .div (zext64 0) (zext64 (s.operandB n)) = 0 := by
    rw [alu_div, show (zext64 0).toInt = 0 from rfl, Int.zero_tdiv]
    rfl
  rw [s.leNat_arithBytes, hA, hzero]
  exact Nat.zero_mod _

/-- The commutative operators of R136. -/
theorem alu_comm {o : ArithOp} (ho : o = .add ∨ o = .mul) (a b : Word64) : alu o a b = alu o b a := by
  rcases ho with rfl | rfl
  · rw [alu_add, alu_add, BitVec.add_comm]
  · rw [alu_mul, alu_mul, BitVec.mul_comm]

theorem exec_arith_underflow {o : ArithOp} {n : Width} {s : State} (hinv : Inv s)
    (hn : s.top + 1 < 2 * n.bytes) : exec (.arith o n) s = .next (s.raised .stackUnderflow) := by
  rw [exec_arith]
  rcases arithStep_cases o n s with ⟨-, he⟩ | ⟨henough, -⟩ | ⟨henough, -⟩ | ⟨hover, -⟩
  · exact he
  · omega
  · omega
  · exact absurd hinv.stack.lt_capacity (Int.not_lt.mpr hover)

theorem exec_div_by_zero {n : Width} {s : State} (hinv : Inv s) (hn : 2 * (n.bytes : Int) ≤ s.top + 1)
    (hB : s.operandB n = 0) : exec (.arith .div n) s = .next (s.raised .divideByZero) := by
  rw [exec_arith]
  rcases arithStep_cases .div n s with ⟨hshort, -⟩ | ⟨-, -, -, -, he⟩ | ⟨-, -, hz, -⟩ | ⟨hover, -⟩
  · omega
  · exact he
  · exact absurd ⟨rfl, hB⟩ hz
  · exact absurd hinv.stack.lt_capacity (Int.not_lt.mpr hover)

/-- Storing the unit's result over operand B and moving `top` and `ip` is all of R117. -/
theorem State.replaces_writeBytes {s : State} {n : Width} {b : List Byte} (hwf : s.stack.wf)
    (hn : 2 * (n.bytes : Int) ≤ s.top + 1) (hb : b.length = n.bytes) :
    Replaces s (({ s with stack := s.stack.writeBytes (s.addrB n).toNat b }.setTop (s.top - n.bytes)).advance 0)
      n (leNat b) := by
  refine ⟨rfl, ?_, fun a ha => ?_⟩
  · rw [← hb]
    exact congrArg leNat (Memory.readBytes_writeBytes _ hwf _ b)
  · refine Memory.read_writeBytes_outside _ hwf _ b a ?_
    have haddr : 0 ≤ s.addrB n := by unfold State.addrB; omega
    omega

/-- Where an arithmetic instruction completes, with its effect and frame (R110, R117). -/
theorem exec_arith_replaces {o : ArithOp} {n : Width} {s : State} (hinv : Inv s)
    (hn : 2 * (n.bytes : Int) ≤ s.top + 1) (hz : ¬(o = .div ∧ s.operandB n = 0)) :
    ∃ t, exec (.arith o n) s = .next t ∧ Replaces s t n (leNat (s.arithBytes o n)) := by
  rw [exec_arith]
  rcases arithStep_cases o n s with ⟨hshort, -⟩ | ⟨-, -, hdiv, hB, -⟩ | ⟨-, -, -, he⟩ | ⟨hover, -⟩
  · omega
  · exact absurd ⟨hdiv, hB⟩ hz
  · exact ⟨_, he, State.replaces_writeBytes hinv.mem_wf hn (s.arithBytes_length o n)⟩
  · exact absurd hinv.stack.lt_capacity (Int.not_lt.mpr hover)

/-- The value an arithmetic instruction pushed is operand A of the state it leaves: operand B stood where the new top
`N` bytes stand. -/
theorem Replaces.operandA_eq {s t : State} {n : Width} {v : Nat} (h : Replaces s t n v) : t.operandA n = v := by
  obtain ⟨heq, hval, -⟩ := h
  have htop : t.top = s.top - n.bytes := congrArg State.top heq
  have haddr : t.addrA n = s.addrB n := by
    unfold State.addrA State.addrB
    omega
  rw [State.operandA, haddr, hval]

/-- Where an arithmetic instruction completes, as the value it leaves on top (R110). -/
theorem exec_arith_operandA {o : ArithOp} {n : Width} {s : State} (hinv : Inv s)
    (hn : 2 * (n.bytes : Int) ≤ s.top + 1) (hz : ¬(o = .div ∧ s.operandB n = 0)) :
    ∃ t, exec (.arith o n) s = .next t ∧ t.operandA n = leNat (s.arithBytes o n) := by
  obtain ⟨t, hexec, hrep⟩ := exec_arith_replaces hinv hn hz
  exact ⟨t, hexec, hrep.operandA_eq⟩

end Sys2Proof.Machine

section
open Sys2Proof Sys2Proof.Machine

/-- Settles O22: the unit's 64-bit sum, truncated to `N` bytes, is the sum modulo `2^(8N)`. -/
theorem addPushesTheSum : Obligations.AddPushesTheSum := by
  unfold Obligations.AddPushesTheSum
  refine ⟨rfl, rfl, rfl, rfl, fun n s hinv => ⟨exec_arith_underflow hinv, fun hn => ?_⟩⟩
  rw [← s.leNat_arithBytes_add]
  exact exec_arith_replaces hinv hn (by simp)

/-- Settles O23: the unit's 64-bit difference `A - B`, truncated to `N` bytes, is the difference modulo `2^(8N)`. -/
theorem subPushesTheDifference : Obligations.SubPushesTheDifference := by
  unfold Obligations.SubPushesTheDifference
  refine ⟨rfl, rfl, rfl, rfl, fun n s hinv => ⟨exec_arith_underflow hinv, fun hn => ?_⟩⟩
  rw [← s.leNat_arithBytes_sub, Int.toNat_natCast]
  exact exec_arith_replaces hinv hn (by simp)

/-- Settles O24: the low 64 bits of the product, truncated to `N` bytes, are the product modulo `2^(8N)`. -/
theorem mulPushesTheProduct : Obligations.MulPushesTheProduct := by
  unfold Obligations.MulPushesTheProduct
  refine ⟨rfl, rfl, rfl, rfl, fun n s hinv => ⟨exec_arith_underflow hinv, fun hn => ?_⟩⟩
  rw [← s.leNat_arithBytes_mul]
  exact exec_arith_replaces hinv hn (by simp)

/-- Settles O25: below width 8 the unit's signed division is the floor division of the unsigned operands. -/
theorem divNarrowPushesTheQuotient : Obligations.DivNarrowPushesTheQuotient := by
  unfold Obligations.DivNarrowPushesTheQuotient
  refine ⟨rfl, rfl, rfl, fun n s hinv hne => ⟨exec_arith_underflow hinv, exec_div_by_zero hinv, fun hn hB => ?_⟩⟩
  rw [← s.leNat_arithBytes_div_narrow hne]
  exact exec_arith_replaces hinv hn fun hz => hB hz.2

/-- Settles O29: ADD and MUL by the unit's commutativity, SUB because the two differences cancel modulo `2^(8N)`, DIV
because swapping turns the zero divisor into a zero dividend. -/
theorem swappedOperands : Obligations.SwappedOperands := by
  unfold Obligations.SwappedOperands
  intro n s s' hinv hinv' hn htop hA hB
  have hn' : 2 * (n.bytes : Int) ≤ s'.top + 1 := by rwa [htop]
  refine ⟨fun o ho => ?_, ?_, fun hB0 hA0 => ⟨exec_div_by_zero hinv hn hB0, ?_⟩⟩
  · have hnd : o ≠ .div := by rcases ho with rfl | rfl <;> decide
    obtain ⟨t, hexec, hval⟩ := exec_arith_operandA (o := o) hinv hn fun hz => hnd hz.1
    obtain ⟨t', hexec', hval'⟩ := exec_arith_operandA (o := o) hinv' hn' fun hz => hnd hz.1
    refine ⟨t, t', hexec, hexec', ?_⟩
    rw [hval, hval', State.leNat_arithBytes, State.leNat_arithBytes, hA, hB, alu_comm ho]
  · obtain ⟨t, hexec, hval⟩ := exec_arith_operandA (o := .sub) hinv hn (by simp)
    obtain ⟨t', hexec', hval'⟩ := exec_arith_operandA (o := .sub) hinv' hn' (by simp)
    have hdiff := s.leNat_arithBytes_sub n
    have hdiff' := s'.leNat_arithBytes_sub n
    rw [hA, hB] at hdiff'
    refine ⟨t, t', hexec, hexec', by rw [hval, hdiff], ?_⟩
    zify
    rw [hval, hval', hdiff, hdiff', ← Int.add_emod, sub_add_sub_cancel, sub_self, Int.zero_emod]
  · obtain ⟨t', hexec', hval'⟩ := exec_arith_operandA (o := .div) hinv' hn' fun hz => hA0 (hB ▸ hz.2)
    exact ⟨t', hexec', by rw [hval', State.leNat_arithBytes_div_of_zero (hA.trans hB0)]⟩

end

/-! Proofs about the exceptions (R140 to R148): the rule by which each kind of fault is raised, that a step from a
RUNNING state either goes on or raises a fault by its rule, and that under `Inv` every rule that applies is obeyed. -/

namespace Sys2Proof

theorem opcode_push (n : Width) (imm : List Byte) : opcode (.push n imm) = opcode (.push n []) := by
  cases n <;> rfl

/-- A POP is of format Z: its row of R53 asks for no immediate. -/
theorem shapeOf_opcode_pop (n : Width) : shapeOf (opcode (.pop n)) = some (.zero (.pop n)) := by
  cases n <;> exact shapeOf_opcode _

/-- An arithmetic instruction is of format Z. -/
theorem shapeOf_opcode_arith (o : ArithOp) (n : Width) :
    shapeOf (opcode (.arith o n)) = some (.zero (.arith o n)) := by
  cases o <;> cases n <;> exact shapeOf_opcode _

/-- Everything the decoder can answer where there is a byte to decode, by the instruction whose opcode it is. -/
theorem decode_cons_cases (op : Byte) (rest : List Byte) :
    ((∀ i, op ≠ opcode i) ∧ decode (op :: rest) = .error (.invalidOpcode op)) ∨
    (∃ n, op = opcode (.push n []) ∧ rest.length < n.bytes ∧ decode (op :: rest) = .error (.truncated n)) ∨
    ∃ i rest', op = opcode i ∧ decode (op :: rest) = .ok (i, rest') := by
  cases hop : shapeOf op with
  | none =>
    refine .inl ⟨fun i hi => ?_, decode_invalid hop rest⟩
    rw [hi, shapeOf_opcode] at hop
    cases hop
  | some sh =>
    rcases shapeOf_some hop with ⟨i, rfl, hi, -, -⟩ | ⟨n, rfl, hn⟩
    · exact .inr (.inr ⟨i, rest, hi, decode_zero hop rest⟩)
    · by_cases hlt : rest.length < n.bytes
      · exact .inr (.inl ⟨n, hn [], hlt, by rw [decode_push hop, if_pos hlt]⟩)
      · exact .inr (.inr ⟨_, _, hn _, by rw [decode_push hop, if_neg hlt]⟩)

end Sys2Proof

namespace Sys2Proof.Machine

/-- When a step from `s` is to raise the fault `k`: R141 to R145, a constructor for each source of a fault. -/
inductive State.Raises (s : State) : FaultKind → Prop where
  | invalidOpcode (hip : s.ip < s.prog.length) (hop : ∀ i : Instr, s.prog[s.ip]? ≠ some (opcode i)) :
      s.Raises .invalidOpcode
  | overflow (n : Width) (hop : s.prog[s.ip]? = some (opcode (.push n []))) (hl : s.ip + n.bytes < s.prog.length)
      (hc : (s.cfg.capacity : Int) ≤ s.top + n.bytes) : s.Raises .stackOverflow
  | underflowAtEnd (hend : s.prog.length ≤ s.ip) (hn : s.top + 1 < 8) : s.Raises .stackUnderflow
  | underflowPop (n : Width) (hop : s.prog[s.ip]? = some (opcode (.pop n))) (hn : s.top + 1 < n.bytes) :
      s.Raises .stackUnderflow
  | underflowArith (o : ArithOp) (n : Width) (hop : s.prog[s.ip]? = some (opcode (.arith o n)))
      (hn : s.top + 1 < 2 * n.bytes) : s.Raises .stackUnderflow
  | divideByZero (n : Width) (hop : s.prog[s.ip]? = some (opcode (.arith .div n)))
      (hn : 2 * (n.bytes : Int) ≤ s.top + 1) (hB : s.operandB n = 0) : s.Raises .divideByZero
  | truncated (n : Width) (hop : s.prog[s.ip]? = some (opcode (.push n [])))
      (hl : s.prog.length ≤ s.ip + n.bytes) : s.Raises .truncatedProgram

/-- What every step from a RUNNING state is: it goes on, or ends the run without a fault, with `ERR` as it was; or it is
fault entry by the rule of the kind it reports (R147). -/
def State.CompletesOrRaises (s t : State) : Prop :=
  (t.status ≠ .faulted ∧ t.err = s.err) ∨ ∃ k, s.Raises k ∧ t = s.raised k

/-- A step that neither ends the run nor faults leaves `STATUS` and `ERR` alone. -/
theorem State.completesOrRaises_of_same {s t : State} (hs : s.status = .running) (hst : t.status = s.status)
    (he : t.err = s.err) : s.CompletesOrRaises t :=
  .inl ⟨by rw [hst, hs]; decide, he⟩

theorem State.Raises.completesOrRaises {s : State} {k : FaultKind} (h : s.Raises k) :
    s.CompletesOrRaises (s.raised k) := .inr ⟨k, h, rfl⟩

theorem pushImm_completesOrRaises {n : Width} {imm : List Byte} {s t : State} (hs : s.status = .running)
    (hop : s.prog[s.ip]? = some (opcode (.push n []))) (h : pushImm n imm s = .next t) : s.CompletesOrRaises t := by
  rcases pushImm_cases n imm s with ⟨-, he⟩ | ⟨-, hl, he⟩ | ⟨-, hl, hc, he⟩ | ⟨-, -, -, -, he⟩ | ⟨-, -, he⟩ <;>
    rw [he] at h <;> cases h
  · exact (State.Raises.truncated n hop hl).completesOrRaises
  · exact (State.Raises.overflow n hop hl hc).completesOrRaises
  · exact State.completesOrRaises_of_same hs rfl rfl

theorem popDiscard_completesOrRaises {n : Width} {s t : State} (hs : s.status = .running)
    (hop : s.prog[s.ip]? = some (opcode (.pop n))) (h : popDiscard n s = .next t) : s.CompletesOrRaises t := by
  rcases popDiscard_cases n s with ⟨hn, he⟩ | ⟨-, -, he⟩ | ⟨-, he⟩ <;> rw [he] at h <;> cases h
  · exact (State.Raises.underflowPop n hop hn).completesOrRaises
  · exact State.completesOrRaises_of_same hs rfl rfl

theorem arithStep_completesOrRaises {o : ArithOp} {n : Width} {s t : State} (hs : s.status = .running)
    (hop : s.prog[s.ip]? = some (opcode (.arith o n))) (h : arithStep o n s = .next t) : s.CompletesOrRaises t := by
  rcases arithStep_cases o n s with ⟨hn, he⟩ | ⟨hn, -, rfl, hB, he⟩ | ⟨-, -, -, he⟩ | ⟨-, he⟩ <;>
    rw [he] at h <;> cases h
  · exact (State.Raises.underflowArith o n hop hn).completesOrRaises
  · exact (State.Raises.divideByZero n hop hn hB).completesOrRaises
  · exact State.completesOrRaises_of_same hs rfl rfl

theorem finalExtraction_completesOrRaises {s t : State} (hend : s.prog.length ≤ s.ip)
    (h : finalExtraction s = .next t) : s.CompletesOrRaises t := by
  rcases finalExtraction_cases s with ⟨hn, he⟩ | ⟨-, -, he⟩ | ⟨-, he⟩ <;> rw [he] at h <;> cases h
  · exact (State.Raises.underflowAtEnd hend hn).completesOrRaises
  · exact .inl ⟨by simp, rfl⟩

theorem exec_completesOrRaises {i : Instr} {s t : State} (hs : s.status = .running)
    (hop : s.prog[s.ip]? = some (opcode i)) (h : exec i s = .next t) : s.CompletesOrRaises t := by
  rcases instr_shapes i with rfl | rfl | ⟨n, imm, rfl⟩ | ⟨n, rfl⟩ | ⟨o, n, rfl⟩
  · cases h
    exact State.completesOrRaises_of_same hs rfl rfl
  · cases h
    exact State.completesOrRaises_of_same hs rfl rfl
  · rw [opcode_push] at hop
    exact pushImm_completesOrRaises hs hop (exec_push n imm s ▸ h)
  · exact popDiscard_completesOrRaises hs hop (exec_pop n s ▸ h)
  · exact arithStep_completesOrRaises hs hop (exec_arith o n s ▸ h)

/-- Everything the fetch can answer inside the program, by the byte at `ip` (R52, R54, R56). -/
theorem State.fetch_cases {s : State} (hip : s.ip < s.prog.length) :
    ((∀ i : Instr, s.prog[s.ip]? ≠ some (opcode i)) ∧ ∃ op, s.fetch = .error (.invalidOpcode op)) ∨
    (∃ n, s.prog[s.ip]? = some (opcode (.push n [])) ∧ s.prog.length ≤ s.ip + n.bytes ∧
      s.fetch = .error (.truncated n)) ∨
    ∃ i rest, s.prog[s.ip]? = some (opcode i) ∧ s.fetch = .ok (i, rest) := by
  have hat := List.getElem?_eq_getElem hip
  rw [State.fetch, State.fetchBytes_of_getElem? hat, hat]
  rcases decode_cons_cases s.prog[s.ip] (s.prog.drop (s.ip + 1)) with ⟨hne, hd⟩ | ⟨n, hop, hl, hd⟩ | ⟨i, r, hop, hd⟩
  · exact .inl ⟨fun i hi => hne i (Option.some.inj hi), _, hd⟩
  · rw [List.length_drop] at hl
    exact .inr (.inl ⟨n, congrArg some hop, by omega, hd⟩)
  · exact .inr (.inr ⟨i, r, congrArg some hop, hd⟩)

theorem step_eq_finalExtraction {s : State} (hs : s.status = .running) (hend : s.prog.length ≤ s.ip) :
    step s = finalExtraction s := by
  rcases step_cases s with ⟨hns, -⟩ | ⟨-, -, he⟩ | ⟨-, hip, -⟩ | ⟨-, hip, -⟩ | ⟨-, hip, -⟩
  · exact absurd hs hns
  · exact he
  all_goals exact absurd hend (Nat.not_le.mpr hip)

/-- R54 at the level of a step: a byte the fetch finds to be no opcode raises `InvalidOpcode`. -/
theorem step_of_fetch_invalid {s : State} {op : Byte} (hs : s.status = .running)
    (hf : s.fetch = .error (.invalidOpcode op)) : step s = .next (s.raised .invalidOpcode) := by
  rcases step_cases s with ⟨hns, -⟩ | ⟨-, hend, -⟩ | ⟨-, -, i, rest, hf', -⟩ | ⟨-, -, -, -, he⟩ | ⟨-, -, n, hf', -⟩
  · exact absurd hs hns
  · rw [State.fetch, State.fetchBytes, List.drop_eq_nil_of_le hend] at hf
    cases hf
  · rw [hf] at hf'
    cases hf'
  · exact he
  · rw [hf] at hf'
    cases hf'

/-- A step at the opcode of an instruction of format Z runs it: there is no immediate to wait for (R51, R70). -/
theorem step_eq_exec_of_zero {s : State} {i : Instr} (hs : s.status = .running)
    (hop : s.prog[s.ip]? = some (opcode i)) (hz : shapeOf (opcode i) = some (.zero i)) : step s = exec i s := by
  have hf : s.fetch = .ok (i, s.prog.drop (s.ip + 1)) := by
    rw [State.fetch, State.fetchBytes_of_getElem? hop, decode_zero hz]
  exact step_eq_exec_of_decode hs hf

/-- Every step from a RUNNING state, whether or not `Inv` holds: no fault is raised but by its rule. -/
theorem step_completesOrRaises {s t : State} (hs : s.status = .running) (h : step s = .next t) :
    s.CompletesOrRaises t := by
  rcases Nat.lt_or_ge s.ip s.prog.length with hip | hend
  · rcases State.fetch_cases hip with ⟨hop, op, hf⟩ | ⟨n, hop, hl, hf⟩ | ⟨i, rest, hop, hf⟩
    · rw [step_of_fetch_invalid hs hf] at h
      cases h
      exact (State.Raises.invalidOpcode hip hop).completesOrRaises
    · rw [step_of_fetch_truncated hs hf] at h
      cases h
      exact (State.Raises.truncated n hop hl).completesOrRaises
    · rw [step_eq_exec_of_decode hs hf] at h
      exact exec_completesOrRaises hs hop h
  · rw [step_eq_finalExtraction hs hend] at h
    exact finalExtraction_completesOrRaises hend h

/-- A step that reports `k` started where the rule of `k` applies: under `Inv` a RUNNING state reports nothing yet. -/
theorem raises_of_step_err {s t : State} {k : FaultKind} (hinv : Inv s) (hs : s.status = .running)
    (h : step s = .next t) (he : t.err = .fault k) : s.Raises k := by
  have hnone : s.err = .none := hinv.err_iff.mpr (by rw [hs]; decide)
  rcases step_completesOrRaises hs h with ⟨-, hsame⟩ | ⟨k', hk, rfl⟩
  · rw [he, hnone] at hsame
    cases hsame
  · cases he
    exact hk

/-- Where the rule of a kind applies, the step is fault entry with that kind (R147). -/
theorem step_eq_raised {s : State} {k : FaultKind} (hinv : Inv s) (hs : s.status = .running) (h : s.Raises k) :
    step s = .next (s.raised k) := by
  cases h with
  | invalidOpcode hip hop =>
    rcases State.fetch_cases hip with ⟨-, op, hf⟩ | ⟨n, hop', -⟩ | ⟨i, rest, hop', -⟩
    · exact step_of_fetch_invalid hs hf
    · exact absurd hop' (hop _)
    · exact absurd hop' (hop _)
  | overflow n hop hl hc =>
    rw [step_eq_pushImm hs hop hl]
    exact pushImm_overflow (State.immediate_length hl) hl hc
  | underflowAtEnd hend hn =>
    rw [step_eq_finalExtraction hs hend]
    rcases finalExtraction_cases s with ⟨-, he⟩ | ⟨henough, -⟩ | ⟨hover, -⟩
    · exact he
    · omega
    · exact absurd hinv.stack.lt_capacity (Int.not_lt.mpr hover)
  | underflowPop n hop hn =>
    rw [step_eq_exec_of_zero hs hop (shapeOf_opcode_pop n), exec_pop]
    exact popDiscard_underflow hinv hn
  | underflowArith o n hop hn =>
    rw [step_eq_exec_of_zero hs hop (shapeOf_opcode_arith o n)]
    exact exec_arith_underflow hinv hn
  | divideByZero n hop hn hB =>
    rw [step_eq_exec_of_zero hs hop (shapeOf_opcode_arith .div n)]
    exact exec_div_by_zero hinv hn hB
  | truncated n hop hl => exact step_of_fetch_truncated hs (State.fetch_push_truncated hop hl)

/-- R80: fault entry ends the run, and nothing but reset leaves it (R149). -/
theorem step_raised (s : State) (k : FaultKind) : step (s.raised k) = .fault .notRunning := by
  rcases step_cases (s.raised k) with ⟨-, he⟩ | ⟨hr, -⟩ | ⟨hr, -⟩ | ⟨hr, -⟩ | ⟨hr, -⟩
  · exact he
  all_goals cases hr

/-- The cause codes of R140 are 1 to 5. -/
theorem FaultKind.code_bounds (k : FaultKind) : 1 ≤ (FaultKind.code k).toNat ∧ (FaultKind.code k).toNat ≤ 5 := by
  cases k <;> decide

theorem Replaces.status_eq {s t : State} {n : Width} {v : Nat} (h : Replaces s t n v) : t.status = s.status := by
  obtain ⟨heq, -⟩ := h
  rw [heq]

end Sys2Proof.Machine

section
open Sys2Proof Sys2Proof.Machine

/-- Settles O32: the decoder rejects a byte exactly when it is no instruction's opcode, and nothing after the decoder
raises this kind. -/
theorem invalidOpcodeExactlyWhen : Obligations.InvalidOpcodeExactlyWhen := by
  unfold Obligations.InvalidOpcodeExactlyWhen
  intro s hinv hs
  refine ⟨fun hip hop => step_eq_raised hinv hs (.invalidOpcode hip hop), fun t h he => ?_⟩
  cases raises_of_step_err hinv hs h he with
  | invalidOpcode hip hop => exact ⟨hip, hop⟩

/-- Settles O33: only a PUSH opcode whose immediate runs past the end raises it. -/
theorem truncatedProgramExactlyWhen : Obligations.TruncatedProgramExactlyWhen := by
  unfold Obligations.TruncatedProgramExactlyWhen
  intro s hinv hs
  refine ⟨fun n hop hl => step_eq_raised hinv hs (.truncated n hop hl), fun t h he => ?_⟩
  cases raises_of_step_err hinv hs h he with
  | truncated n hop hl => exact ⟨(List.getElem?_eq_some_iff.mp hop).1, n, hop, hl⟩

/-- Settles O35: the three sources of an underflow are the final extraction, a POP and an arithmetic instruction. -/
theorem stackUnderflowExactlyWhen : Obligations.StackUnderflowExactlyWhen := by
  unfold Obligations.StackUnderflowExactlyWhen
  intro s hinv hs
  refine ⟨fun hshort => step_eq_raised hinv hs ?_, fun t h he => ?_⟩
  · rcases hshort with ⟨hend, hn⟩ | ⟨n, hop, hn⟩ | ⟨o, n, hop, hn⟩
    · exact .underflowAtEnd hend hn
    · exact .underflowPop n hop hn
    · exact .underflowArith o n hop hn
  · cases raises_of_step_err hinv hs h he with
    | underflowAtEnd hend hn => exact .inl ⟨hend, hn⟩
    | underflowPop n hop hn => exact .inr (.inl ⟨n, hop, hn⟩)
    | underflowArith o n hop hn => exact .inr (.inr ⟨o, n, hop, hn⟩)

/-- Settles O36: only the divisor is tested, after the underflow check; a DIV whose divisor is not 0 completes, a
dividend of 0 included. -/
theorem divideByZeroExactlyWhen : Obligations.DivideByZeroExactlyWhen := by
  unfold Obligations.DivideByZeroExactlyWhen
  intro s hinv hs
  refine ⟨fun n hop hn hB => step_eq_raised hinv hs (.divideByZero n hop hn hB), fun t h he => ?_,
    fun n hop hn _ hB => ?_⟩
  · cases raises_of_step_err hinv hs h he with
    | divideByZero n hop hn hB => exact ⟨n, hop, hn, hB⟩
  · rw [step_eq_exec_of_zero hs hop (shapeOf_opcode_arith .div n)]
    obtain ⟨t, hexec, hrep⟩ := exec_arith_replaces (o := .div) hinv hn fun hz => hB hz.2
    exact ⟨t, hexec, hrep.status_eq.trans hs⟩

/-- Settles O37: a step that does not complete is fault entry from the state before it, and no step follows. -/
theorem faultEntryChangesOnlyErrAndStatus : Obligations.FaultEntryChangesOnlyErrAndStatus := by
  unfold Obligations.FaultEntryChangesOnlyErrAndStatus
  intro s t hs h ht
  rcases step_completesOrRaises hs h with ⟨hne, -⟩ | ⟨k, -, rfl⟩
  · exact absurd ht hne
  · refine ⟨⟨k, rfl, rfl, FaultKind.code_bounds k⟩, fun u hu => ?_⟩
    rw [step_raised] at hu
    cases hu

end

/-! Proofs about the decoder and the encoder (R50 to R58): the round trips of one instruction and of a program, the
invalid opcode bytes, immediates as program bytes and as numbers, and a table word placed at `ip`. -/

namespace Sys2Proof

@[simp] theorem Instr.imm_push (n : Width) (imm : List Byte) : (Instr.push n imm).imm = imm := by cases n <;> rfl

theorem Instr.wellFormed_push {n : Width} {imm : List Byte} : (Instr.push n imm).WellFormed ↔ imm.length = n.bytes := by
  rw [Instr.WellFormed, Instr.imm_push, Instr.immWidth_push]

/-- An instruction other than a PUSH selects a row of format Z, the row that names it (R51). -/
theorem shapeOf_opcode_of_not_push {i : Instr} (h : ∀ n imm, i ≠ .push n imm) :
    shapeOf (opcode i) = some (.zero i) := by
  rcases Machine.instr_shapes i with rfl | rfl | ⟨n, imm, rfl⟩ | ⟨n, rfl⟩ | ⟨o, n, rfl⟩
  · rfl
  · rfl
  · exact absurd rfl (h n imm)
  · exact shapeOf_opcode_pop n
  · exact shapeOf_opcode_arith o n

theorem decode_encode_push {n : Width} {imm : List Byte} (hi : imm.length = n.bytes) (rest : List Byte) :
    decode (encode (.push n imm) ++ rest) = .ok (.push n imm, rest) := by
  rw [encode, Instr.imm_push, List.cons_append, decode_push (shapeOf_opcode_push n imm),
    if_neg (by rw [List.length_append]; omega), List.take_left' hi, List.drop_left' hi]

/-- Decoding takes exactly the bytes of the instruction, whatever follows them (R50, R55). -/
theorem decode_encode {i : Instr} (h : i.WellFormed) (rest : List Byte) :
    decode (encode i ++ rest) = .ok (i, rest) := by
  by_cases hpush : ∃ n imm, i = .push n imm
  · obtain ⟨n, imm, rfl⟩ := hpush
    exact decode_encode_push (Instr.wellFormed_push.mp h) rest
  · have hnot : ∀ n imm, i ≠ .push n imm := fun n imm hi => hpush ⟨n, imm, hi⟩
    rw [encode, (Instr.no_imm_of_not_push hnot).2]
    exact decode_zero (shapeOf_opcode_of_not_push hnot) rest

/-- A byte string that decodes begins with the encoding of what it decodes to (R55). -/
theorem eq_encode_of_decode_ok {p rest : List Byte} {i : Instr} (h : decode p = .ok (i, rest)) :
    i.WellFormed ∧ p = encode i ++ rest := by
  cases p with
  | nil => cases h
  | cons op tl =>
    cases hop : shapeOf op with
    | none => rw [decode_invalid hop] at h; cases h
    | some sh =>
      rcases shapeOf_some hop with ⟨j, rfl, hj, himm, hw⟩ | ⟨n, rfl, hn⟩
      · rw [decode_zero hop] at h
        cases h
        exact ⟨by rw [Instr.WellFormed, himm, hw]; rfl, by rw [encode, himm, hj]; rfl⟩
      · rw [decode_push hop] at h
        split at h
        · cases h
        · rename_i hlong
          cases h
          refine ⟨Instr.wellFormed_push.mpr (by rw [List.length_take]; omega), ?_⟩
          rw [encode, Instr.imm_push, ← hn, List.cons_append, List.take_append_drop]

/-- A byte is no instruction's opcode exactly when it selects no row of R53. -/
theorem forall_opcode_ne_iff {op : Byte} : (∀ i : Instr, opcode i ≠ op) ↔ shapeOf op = none := by
  constructor
  · intro h
    cases hop : shapeOf op with
    | none => rfl
    | some sh =>
      rcases shapeOf_some hop with ⟨i, -, hi, -⟩ | ⟨n, -, hn⟩
      · exact absurd hi.symm (h i)
      · exact absurd (hn []).symm (h _)
  · rintro h i rfl
    rw [shapeOf_opcode] at h
    cases h

theorem decode_eq_invalid_iff {op : Byte} {rest : List Byte} :
    decode (op :: rest) = .error (.invalidOpcode op) ↔ ∀ i : Instr, opcode i ≠ op := by
  constructor
  · intro h
    rcases decode_cons_cases op rest with ⟨hne, -⟩ | ⟨n, -, -, hd⟩ | ⟨i, r, -, hd⟩
    · exact fun i hi => hne i hi.symm
    · rw [hd] at h
      cases h
    · rw [hd] at h
      cases h
  · exact fun h => decode_invalid (forall_opcode_ne_iff.mp h) rest

/-- Where a byte is an opcode, the decoder answers an instruction or finds its immediate cut short (R54, R56). -/
theorem decode_of_valid {op : Byte} (h : shapeOf op ≠ none) (rest : List Byte) :
    (∃ i r, decode (op :: rest) = .ok (i, r)) ∨ ∃ n, decode (op :: rest) = .error (.truncated n) := by
  rcases decode_cons_cases op rest with ⟨hne, -⟩ | ⟨n, -, -, hd⟩ | ⟨i, r, -, hd⟩
  · exact absurd (forall_opcode_ne_iff.mp fun i hi => hne i hi.symm) h
  · exact .inr ⟨n, hd⟩
  · exact .inl ⟨i, r, hd⟩

/-- What a byte string decodes to does not change when bytes are put after it (R50). -/
theorem decode_append {p rest : List Byte} {i : Instr} (h : decode p = .ok (i, rest)) (q : List Byte) :
    decode (p ++ q) = .ok (i, rest ++ q) := by
  obtain ⟨hwf, rfl⟩ := eq_encode_of_decode_ok h
  rw [List.append_assoc]
  exact decode_encode hwf (rest ++ q)

end Sys2Proof

namespace Sys2Proof.Machine

theorem assemble_cons (i : Instr) (is : List Instr) : assemble (i :: is) = encode i ++ assemble is := List.flatMap_cons

theorem disassembleFrom_nil (fuel : Nat) : disassembleFrom fuel [] = [] := by cases fuel <;> rfl

theorem disassembleFrom_of_decode {p rest : List Byte} {i : Instr} (h : decode p = .ok (i, rest)) (fuel : Nat) :
    disassembleFrom (fuel + 1) p = .instr i :: disassembleFrom fuel rest := by
  simp only [disassembleFrom, h]

/-- With a line of fuel for each byte, disassembly lists an assembled program to its end (R55). -/
theorem disassembleFrom_assemble {is : List Instr} (h : ∀ i ∈ is, i.WellFormed) {fuel : Nat}
    (hf : (assemble is).length ≤ fuel) : disassembleFrom fuel (assemble is) = is.map Line.instr := by
  induction is generalizing fuel with
  | nil => exact disassembleFrom_nil fuel
  | cons i is ih =>
    rw [assemble_cons, encode, List.cons_append, List.length_cons, List.length_append] at hf
    obtain ⟨fuel, rfl⟩ : ∃ k, fuel = k + 1 := ⟨fuel - 1, by omega⟩
    rw [assemble_cons, disassembleFrom_of_decode (decode_encode (h i List.mem_cons_self) _), List.map_cons,
      ih (fun j hj => h j (List.mem_cons_of_mem i hj)) (by omega)]

end Sys2Proof.Machine

section
open Sys2Proof Sys2Proof.Machine

/-- Settles O9: the opcode selects the instruction's own row, and a PUSH takes back the `N` bytes it carried. -/
theorem decodeEncodeRoundTrip : Obligations.DecodeEncodeRoundTrip := by
  unfold Obligations.DecodeEncodeRoundTrip
  exact fun i rest h => decode_encode h rest

/-- Settles O10: a row of R53 is selected by its own opcode byte only. -/
theorem decodeAcceptsOnlyEncodings : Obligations.DecodeAcceptsOnlyEncodings := by
  unfold Obligations.DecodeAcceptsOnlyEncodings
  exact fun p i rest h => eq_encode_of_decode_ok h

/-- Settles O11, by induction on the program. -/
theorem disassemblyInvertsAssembly : Obligations.DisassemblyInvertsAssembly := by
  unfold Obligations.DisassemblyInvertsAssembly
  exact fun is h => disassembleFrom_assemble h (Nat.le_refl _)

/-- Settles O13: the invalid bytes are those that select no row of R53, which are those from `0x1A` on. -/
theorem invalidOpcodeBytes : Obligations.InvalidOpcodeBytes := by
  unfold Obligations.InvalidOpcodeBytes
  refine fun op rest => ⟨decode_eq_invalid_iff, forall_opcode_ne_iff.trans shapeOf_none, fun hlt => ?_⟩
  exact decode_of_valid (fun hnone => by have := shapeOf_none.mp hnone; omega) rest

/-- Settles O8: each word's bytes decode by evaluation. -/
theorem tableWordsDecode : Obligations.TableWordsDecode := by
  unfold Obligations.TableWordsDecode
  decide

end

/-! Proofs about immediates and about the bytes at `ip`: where an immediate stands in the program (R33, R52), numbers
as immediates (R52), and a table word placed where the step fetches. -/

namespace Sys2Proof.Machine

/-- Bytes that lie inside the program are what `ProgRead` gives (R33). -/
theorem State.progRead_of_drop_eq {s : State} {a : Nat} {bs rest : List Byte} (h : s.prog.drop a = bs ++ rest)
    (ha : a ≤ s.prog.length) : s.progRead a bs.length = some bs := by
  have hlen := congrArg List.length h
  rw [List.length_drop, List.length_append] at hlen
  rw [State.progRead, if_pos (by omega), h, List.take_left]

/-- A fetched PUSH stands in the program with its opcode at `ip` and its immediate after it (R52). -/
theorem State.drop_of_fetch_push {s : State} {n : Width} {imm rest : List Byte}
    (h : s.fetch = .ok (.push n imm, rest)) : imm.length = n.bytes ∧ s.prog.drop (s.ip + 1) = imm ++ rest := by
  obtain ⟨hwf, hp⟩ := eq_encode_of_decode_ok h
  rw [State.fetchBytes, encode, Instr.imm_push, List.cons_append] at hp
  refine ⟨Instr.wellFormed_push.mp hwf, ?_⟩
  rw [← List.drop_drop, hp, List.drop_one, List.tail_cons]

/-- A fetched instruction ends inside the program (R50). -/
theorem State.fetch_ok_le {s : State} {i : Instr} {rest : List Byte} (h : s.fetch = .ok (i, rest)) :
    s.ip + 1 + i.immWidth ≤ s.prog.length := by
  obtain ⟨hwf, hp⟩ := eq_encode_of_decode_ok h
  have hlen := congrArg List.length hp
  rw [State.fetchBytes, List.length_drop, List.length_append, encode, List.length_cons, hwf] at hlen
  omega

theorem immOfInt_eq_some {n : Width} {v : Int} (h0 : -(2 ^ (8 * n.bytes - 1)) ≤ v) (h1 : v < 2 ^ (8 * n.bytes)) :
    ∃ b, immOfInt n v = some b ∧ b.length = n.bytes ∧ (leNat b : Int) = v % 2 ^ (8 * n.bytes) := by
  refine ⟨_, if_pos ⟨h0, h1⟩, leBytes_length _ _, ?_⟩
  have hpos : (0 : Int) < 2 ^ (8 * n.bytes) := by positivity
  rw [leNat_leBytes, Int.natCast_mod, Int.toNat_of_nonneg (Int.emod_nonneg v hpos.ne'), Nat.cast_pow, Nat.cast_ofNat,
    Int.emod_emod]

theorem immOfInt_eq_none {n : Width} {v : Int} (h : v < -(2 ^ (8 * n.bytes - 1)) ∨ 2 ^ (8 * n.bytes) ≤ v) :
    immOfInt n v = none := if_neg (by omega)

/-- Placed bytes stand at the address where they were placed. -/
theorem drop_placeBytes (p : List Byte) (ip : Nat) (bytes : List Byte) :
    (placeBytes p ip bytes).drop ip = bytes ++ p.drop (ip + bytes.length) := by
  have hlen : (p.take ip ++ List.replicate (ip - p.length) 0).length = ip := by
    rw [List.length_append, List.length_take, List.length_replicate]
    omega
  rw [placeBytes, List.append_assoc, List.drop_left' hlen]

theorem decode_of_decodeTableWord {nbits w : Nat} {i : Instr} (h : decodeTableWord nbits w = some i) :
    ∃ rest, decode (wordBytes nbits w) = .ok (i, rest) := by
  unfold decodeTableWord at h
  split at h
  · rename_i rest hd
    cases h
    exact ⟨rest, hd⟩
  · cases h

end Sys2Proof.Machine

section
open Sys2Proof Sys2Proof.Machine

/-- Settles O19: a PUSH decodes only from its encoding, so its immediate stands between `ip + 1` and the rest. -/
theorem immediateIsProgRead : Obligations.ImmediateIsProgRead := by
  unfold Obligations.ImmediateIsProgRead
  refine ⟨fun s n imm rest h => ?_, fun s a n k b h hk => ?_⟩
  · obtain ⟨hlen, hdrop⟩ := State.drop_of_fetch_push h
    have hle := State.fetch_ok_le h
    rw [Instr.immWidth_push] at hle
    exact ⟨hlen ▸ State.progRead_of_drop_eq hdrop (by omega), by omega⟩
  · obtain ⟨-, rfl⟩ := State.progRead_some h
    rw [List.getElem?_take_of_lt hk, List.getElem?_drop]

/-- Settles O48: the stored number is `v` modulo `2^(8N)`, which is `v` or, for a negative `v`, `v + 2^(8N)`. -/
theorem immediateNumbersAssemble : Obligations.ImmediateNumbersAssemble := by
  unfold Obligations.ImmediateNumbersAssemble
  intro n v
  have hhalf : (2 ^ (8 * n.bytes) : Int) = 2 * 2 ^ (8 * n.bytes - 1) := by
    rw [← pow_succ', Nat.sub_add_cancel (by have := n.bytes_pos; omega)]
  have hpos : (0 : Int) < 2 ^ (8 * n.bytes - 1) := by positivity
  refine ⟨fun h0 h1 => ?_, fun hneg hlow => ?_, immOfInt_eq_none⟩
  · obtain ⟨b, hb, hlen, hval⟩ := immOfInt_eq_some (n := n) (v := v) (by omega) h1
    exact ⟨b, hb, hlen, by rw [hval, Int.emod_eq_of_lt h0 h1]⟩
  · obtain ⟨b, hb, hlen, hval⟩ := immOfInt_eq_some (n := n) (v := v) hlow (by omega)
    refine ⟨b, hb, hlen, ?_⟩
    rw [hval, ← Int.add_emod_right, Int.emod_eq_of_lt (by omega) (by omega)]

/-- Settles O50: the word's bytes stand at `ip`, and the bytes after them do not change what they decode to. -/
theorem fetchWordRunsNext : Obligations.FetchWordRunsNext := by
  unfold Obligations.FetchWordRunsNext
  intro s nbits w i h
  obtain ⟨rest, hd⟩ := decode_of_decodeTableWord h
  refine ⟨step_eq_exec_of_decode rfl (rest := rest ++ s.prog.drop (s.ip + (wordBytes nbits w).length)) ?_, rfl⟩
  have hat : (s.withFetchWord nbits w).prog.drop (s.withFetchWord nbits w).ip =
      wordBytes nbits w ++ s.prog.drop (s.ip + (wordBytes nbits w).length) := drop_placeBytes _ _ _
  rw [hat]
  exact decode_append hd _

/-- Settles O5. -/
theorem stepRunsTheDecodedInstruction : Obligations.StepRunsTheDecodedInstruction := by
  unfold Obligations.StepRunsTheDecodedInstruction
  exact fun s i rest => step_eq_exec_of_decode

end

/-! Proofs about the step as a whole (R70): what each family of instructions answers under `Inv`, the six effects a step
can have, and what every one of them keeps. -/

namespace Sys2Proof.Machine

/-- The state after a completed PUSH (R35, R90). -/
def State.pushed (s : State) (n : Width) (imm : List Byte) : State :=
  ({ s with stack := s.stack.writeBytes s.pushAddr.toNat imm }.setTop (s.top + n.bytes)).advance n.bytes

/-- The state after a completed POP (R36, R90). -/
def State.popped (s : State) (n : Width) : State := (s.setTop (s.top - n.bytes)).advance 0

/-- The state after a completed arithmetic instruction (R110). -/
def State.computed (s : State) (o : ArithOp) (n : Width) : State :=
  ({ s with stack := s.stack.writeBytes (s.addrB n).toNat (s.arithBytes o n) }.setTop (s.top - n.bytes)).advance 0

/-- The state after a completed final extraction (R71). -/
def State.reported (s : State) : State := (s.setTop (s.top - 8)).finished (BitVec.ofNat 64 (s.operandA .dw))

theorem exec_halt (s : State) : exec .halt s = .next (s.advance 0) := rfl

theorem pushImm_truncated {n : Width} {imm : List Byte} {s : State} (hi : imm.length = n.bytes)
    (hl : s.prog.length ≤ s.ip + n.bytes) : pushImm n imm s = .next (s.raised .truncatedProgram) := by
  rw [pushImm, if_neg (not_not_intro hi), if_pos hl]
  rfl

theorem pushImm_illFormed {n : Width} {imm : List Byte} (s : State) (hi : imm.length ≠ n.bytes) :
    pushImm n imm s = .refused .illFormedImmediate := if_pos hi

/-- What a PUSH answers under `Inv`, in the order of its checks (R146). -/
theorem pushImm_eq {n : Width} {imm : List Byte} {s : State} (hinv : Inv s) :
    pushImm n imm s =
      if imm.length ≠ n.bytes then .refused .illFormedImmediate
      else if s.prog.length ≤ s.ip + n.bytes then .next (s.raised .truncatedProgram)
      else if (s.cfg.capacity : Int) ≤ s.top + n.bytes then .next (s.raised .stackOverflow)
      else .next (s.pushed n imm) := by
  have htop := hinv.stack.neg_one_le
  rcases pushImm_cases n imm s with ⟨hi, he⟩ | ⟨hi, hl, he⟩ | ⟨hi, hl, hc, he⟩ | ⟨hi, hl, hc, -, he⟩ | ⟨-, hneg, -⟩
  · rw [he, if_pos hi]
  · rw [he, if_neg (not_not_intro hi), if_pos hl]
  · rw [he, if_neg (not_not_intro hi), if_neg (Nat.not_le.mpr hl), if_pos hc]
  · rw [he, if_neg (not_not_intro hi), if_neg (Nat.not_le.mpr hl), if_neg (Int.not_le.mpr hc), State.pushed]
  · omega

/-- What a POP answers under `Inv`. -/
theorem popDiscard_eq {n : Width} {s : State} (hinv : Inv s) :
    popDiscard n s =
      if s.top + 1 < n.bytes then .next (s.raised .stackUnderflow) else .next (s.popped n) := by
  split
  · exact popDiscard_underflow hinv ‹_›
  · exact popDiscard_ok hinv (Int.not_lt.mp ‹_›)

/-- What an arithmetic instruction answers under `Inv`, in the order of its checks (R146). -/
theorem arithStep_eq {o : ArithOp} {n : Width} {s : State} (hinv : Inv s) :
    arithStep o n s =
      if s.top + 1 < 2 * n.bytes then .next (s.raised .stackUnderflow)
      else if o = .div ∧ s.operandB n = 0 then .next (s.raised .divideByZero)
      else .next (s.computed o n) := by
  rcases arithStep_cases o n s with ⟨hn, he⟩ | ⟨hn, -, hdiv, hB, he⟩ | ⟨hn, -, hz, he⟩ | ⟨hover, -⟩
  · rw [he, if_pos hn]
  · rw [he, if_neg (Int.not_lt.mpr hn), if_pos ⟨hdiv, hB⟩]
  · rw [he, if_neg (Int.not_lt.mpr hn), if_neg hz, State.computed]
  · exact absurd hinv.stack.lt_capacity (Int.not_lt.mpr hover)

/-- What the final extraction answers under `Inv` (R71). -/
theorem finalExtraction_eq {s : State} (hinv : Inv s) :
    finalExtraction s =
      if s.top + 1 < 8 then .next (s.raised .stackUnderflow) else .next s.reported := by
  rcases finalExtraction_cases s with ⟨hn, he⟩ | ⟨hn, -, he⟩ | ⟨hover, -⟩
  · rw [he, if_pos hn]
  · rw [he, if_neg (Int.not_lt.mpr hn), State.reported]
  · exact absurd hinv.stack.lt_capacity (Int.not_lt.mpr hover)

/-- Under `Inv` every instruction of the hardware answers a next state. -/
theorem exec_next {i : Instr} {s : State} (hinv : Inv s) (hi : i.WellFormed) : ∃ t, exec i s = .next t := by
  rcases instr_shapes i with rfl | rfl | ⟨n, imm, rfl⟩ | ⟨n, rfl⟩ | ⟨o, n, rfl⟩
  · exact ⟨_, exec_nop s⟩
  · exact ⟨_, exec_halt s⟩
  · rw [exec_push, pushImm_eq hinv, if_neg (not_not_intro (Instr.wellFormed_push.mp hi))]
    split_ifs <;> exact ⟨_, rfl⟩
  · rw [exec_pop, popDiscard_eq hinv]
    split_ifs <;> exact ⟨_, rfl⟩
  · rw [exec_arith, arithStep_eq hinv]
    split_ifs <;> exact ⟨_, rfl⟩

/-- The step is total on RUNNING states (R70): the decoder yields well-formed terms only. -/
theorem step_next {s : State} (hinv : Inv s) (hs : s.status = .running) : ∃ t, step s = .next t := by
  rcases step_cases s with ⟨hns, -⟩ | ⟨-, -, he⟩ | ⟨-, -, i, rest, hf, he⟩ | ⟨-, -, op, -, he⟩ | ⟨-, -, n, -, he⟩
  · exact absurd hs hns
  · rw [he, finalExtraction_eq hinv]
    split_ifs <;> exact ⟨_, rfl⟩
  · rw [he]
    exact exec_next hinv (eq_encode_of_decode_ok hf).1
  · exact ⟨_, he⟩
  · exact ⟨_, he⟩

theorem step_of_not_running {s : State} (hs : s.status ≠ .running) : step s = .fault .notRunning := if_pos hs

theorem running_of_step {s t : State} (h : step s = .next t) : s.status = .running := by
  by_contra hs
  rw [step_of_not_running hs] at h
  cases h

/-- Everything a step can make of a state, with the conditions under which it does: an advance of `ip` alone, a push, a
pop, an arithmetic result, the end of the run, or fault entry. -/
inductive State.Effect (s : State) : State → Prop where
  | skip (hip : s.ip < s.prog.length) : s.Effect (s.advance 0)
  | push (n : Width) (imm : List Byte) (hi : imm.length = n.bytes) (hl : s.ip + n.bytes < s.prog.length)
      (hc : s.top + n.bytes < s.cfg.capacity) : s.Effect (s.pushed n imm)
  | pop (n : Width) (hip : s.ip < s.prog.length) (hn : (n.bytes : Int) ≤ s.top + 1) : s.Effect (s.popped n)
  | compute (o : ArithOp) (n : Width) (hip : s.ip < s.prog.length) (hn : 2 * (n.bytes : Int) ≤ s.top + 1) :
      s.Effect (s.computed o n)
  | report (hend : s.prog.length ≤ s.ip) (hn : 8 ≤ s.top + 1) : s.Effect s.reported
  | raise (k : FaultKind) : s.Effect (s.raised k)

theorem pushImm_effect {n : Width} {imm : List Byte} {s t : State} (h : pushImm n imm s = .next t) : s.Effect t := by
  rcases pushImm_cases n imm s with ⟨-, he⟩ | ⟨-, -, he⟩ | ⟨-, -, -, he⟩ | ⟨hi, hl, hc, -, he⟩ | ⟨-, -, he⟩ <;>
    rw [he] at h <;> cases h
  · exact .raise _
  · exact .raise _
  · exact .push n imm hi hl hc

theorem popDiscard_effect {n : Width} {s t : State} (hip : s.ip < s.prog.length) (h : popDiscard n s = .next t) :
    s.Effect t := by
  rcases popDiscard_cases n s with ⟨-, he⟩ | ⟨hn, -, he⟩ | ⟨-, he⟩ <;> rw [he] at h <;> cases h
  · exact .raise _
  · exact .pop n hip hn

theorem arithStep_effect {o : ArithOp} {n : Width} {s t : State} (hip : s.ip < s.prog.length)
    (h : arithStep o n s = .next t) : s.Effect t := by
  rcases arithStep_cases o n s with ⟨-, he⟩ | ⟨-, -, -, -, he⟩ | ⟨hn, -, -, he⟩ | ⟨-, he⟩ <;> rw [he] at h <;> cases h
  · exact .raise _
  · exact .raise _
  · exact .compute o n hip hn

theorem finalExtraction_effect {s t : State} (hend : s.prog.length ≤ s.ip) (h : finalExtraction s = .next t) :
    s.Effect t := by
  rcases finalExtraction_cases s with ⟨-, he⟩ | ⟨hn, -, he⟩ | ⟨-, he⟩ <;> rw [he] at h <;> cases h
  · exact .raise _
  · exact .report hend hn

theorem exec_effect {i : Instr} {s t : State} (hip : s.ip < s.prog.length) (h : exec i s = .next t) : s.Effect t := by
  rcases instr_shapes i with rfl | rfl | ⟨n, imm, rfl⟩ | ⟨n, rfl⟩ | ⟨o, n, rfl⟩
  · cases h
    exact .skip hip
  · cases h
    exact .skip hip
  · exact pushImm_effect (exec_push n imm s ▸ h)
  · exact popDiscard_effect hip (exec_pop n s ▸ h)
  · exact arithStep_effect hip (exec_arith o n s ▸ h)

/-- Every step that answers a state has one of the effects, whether or not `Inv` holds. -/
theorem step_effect {s t : State} (h : step s = .next t) : s.Effect t := by
  rcases step_cases s with ⟨-, he⟩ | ⟨-, hend, he⟩ | ⟨-, hip, i, rest, -, he⟩ | ⟨-, -, op, -, he⟩ | ⟨-, -, n, -, he⟩ <;>
    rw [he] at h
  · cases h
  · exact finalExtraction_effect hend h
  · exact exec_effect hip h
  · cases h
    exact .raise _
  · cases h
    exact .raise _

theorem Inv.pushed {s : State} (h : Inv s) {n : Width} {imm : List Byte} (hi : imm.length = n.bytes)
    (hl : s.ip + n.bytes < s.prog.length) (hc : s.top + n.bytes < s.cfg.capacity) : Inv (s.pushed n imm) := by
  have htop := h.stack.neg_one_le
  obtain ⟨hwf, hbound⟩ := h.writeBytes s.pushAddr.toNat imm (by unfold State.pushAddr; omega)
  have hip : s.ip + 1 + n.bytes ≤ s.prog.length := by omega
  have hlow : -1 ≤ s.top + n.bytes := by omega
  exact ⟨h.valid, h.prog_fits, hip, ⟨hlow, hc⟩, hwf, hbound, h.err_iff⟩

theorem Inv.popped {s : State} (h : Inv s) {n : Width} (hip : s.ip < s.prog.length)
    (hn : (n.bytes : Int) ≤ s.top + 1) : Inv (s.popped n) := by
  have htop := h.stack.lt_capacity
  have hlow : -1 ≤ s.top - n.bytes := by omega
  have hhigh : s.top - n.bytes < s.cfg.capacity := by omega
  exact ⟨h.valid, h.prog_fits, hip, ⟨hlow, hhigh⟩, h.mem_wf, h.mem_bound, h.err_iff⟩

theorem Inv.computed {s : State} (h : Inv s) {o : ArithOp} {n : Width} (hip : s.ip < s.prog.length)
    (hn : 2 * (n.bytes : Int) ≤ s.top + 1) : Inv (s.computed o n) := by
  have htop := h.stack.lt_capacity
  obtain ⟨hwf, hbound⟩ := h.writeBytes (s.addrB n).toNat (s.arithBytes o n)
    (by rw [State.arithBytes_length]; unfold State.addrB; omega)
  have hlow : -1 ≤ s.top - n.bytes := by omega
  have hhigh : s.top - n.bytes < s.cfg.capacity := by omega
  exact ⟨h.valid, h.prog_fits, hip, ⟨hlow, hhigh⟩, hwf, hbound, h.err_iff⟩

/-- The end of a run: a RUNNING state reports no error, and neither does the `DONE` state after it. -/
theorem Inv.reported {s : State} (h : Inv s) (hs : s.status = .running) (hn : 8 ≤ s.top + 1) : Inv s.reported := by
  have htop := h.stack.lt_capacity
  have hlow : -1 ≤ s.top - 8 := by omega
  have hhigh : s.top - 8 < s.cfg.capacity := by omega
  have herr : s.err = .none := h.err_iff.mpr (by rw [hs]; decide)
  exact ⟨h.valid, h.prog_fits, h.ip_le, ⟨hlow, hhigh⟩, h.mem_wf, h.mem_bound,
    ⟨fun _ => by simp [State.reported], fun _ => herr⟩⟩

theorem Inv.effect {s t : State} (h : Inv s) (hs : s.status = .running) (he : s.Effect t) : Inv t := by
  cases he with
  | skip hip =>
    exact ⟨h.valid, h.prog_fits, hip, ⟨h.stack.neg_one_le, h.stack.lt_capacity⟩, h.mem_wf, h.mem_bound, h.err_iff⟩
  | push n imm hi hl hc => exact h.pushed hi hl hc
  | pop n hip hn => exact h.popped hip hn
  | compute o n hip hn => exact h.computed hip hn
  | report hend hn => exact h.reported hs hn
  | raise k => exact h.raised k

theorem Inv.step {s t : State} (h : Inv s) (hstep : step s = .next t) : Inv t :=
  h.effect (running_of_step hstep) (step_effect hstep)

theorem inv_start {c : Config} {p : List Byte} (hc : c.Valid) (hp : p.length ≤ c.maxProgLen) :
    Inv (State.start c p) := by
  have hcap : 1 ≤ c.capacity := hc.1
  refine ⟨hc, hp, Nat.zero_le _, ⟨Int.le_refl _, ?_⟩, ?_, ?_, by simp⟩
  · rw [State.start_top, State.start_cfg]
    omega
  · exact ⟨List.Pairwise.nil, fun c hc => absurd hc List.not_mem_nil⟩
  · exact fun c hc => absurd hc List.not_mem_nil

/-- A step writes neither the program nor the parameters (R32, R48). -/
theorem State.Effect.prog_cfg {s t : State} (h : s.Effect t) : t.prog = s.prog ∧ t.cfg = s.cfg := by
  cases h <;> exact ⟨rfl, rfl⟩

/-- A step leaves the machine RUNNING only where it ran the instruction fetched at `ip` (R70). -/
theorem exec_of_step_running {s t : State} (h : step s = .next t) (hr : t.status = .running) :
    ∃ i rest, s.fetch = .ok (i, rest) ∧ exec i s = .next t := by
  rcases step_cases s with ⟨-, he⟩ | ⟨-, -, he⟩ | ⟨-, -, i, rest, hf, he⟩ | ⟨-, -, op, -, he⟩ | ⟨-, -, n, -, he⟩ <;>
    rw [he] at h
  · cases h
  · rcases finalExtraction_cases s with ⟨-, he⟩ | ⟨-, -, he⟩ | ⟨-, he⟩ <;> rw [he] at h <;> cases h <;> cases hr
  · exact ⟨i, rest, hf, h⟩
  · exact absurd hr (State.status_ne_running_of_next_raised h)
  · exact absurd hr (State.status_ne_running_of_next_raised h)

/-- R75: a step that leaves the machine RUNNING moves `ip` past the fetched instruction, which ends inside the
program. -/
theorem step_ip_running {s t : State} (h : step s = .next t) (hr : t.status = .running) :
    ∃ i rest, s.fetch = .ok (i, rest) ∧ t.ip = s.ip + 1 + i.immWidth ∧ t.ip ≤ s.prog.length := by
  obtain ⟨i, rest, hf, hexec⟩ := exec_of_step_running h hr
  have hip := exec_ip hexec hr
  exact ⟨i, rest, hf, hip, hip ▸ State.fetch_ok_le hf⟩

/-- A step that ends the run leaves `ip` (R71, R148). -/
theorem State.Effect.ip_of_not_running {s t : State} (h : s.Effect t) (hs : s.status = .running)
    (hr : t.status ≠ .running) : t.ip = s.ip := by
  cases h with
  | skip | push | pop | compute => exact absurd hs hr
  | report | raise => rfl

/-- Every run ends (R176): each step that goes on moves `ip` up, and `ip` is at most `L`. -/
theorem run_ends {d : Nat} {s : State} (hinv : Inv s) (hs : s.status = .running) (hd : s.prog.length - s.ip ≤ d) :
    ∃ k t, k ≤ d + 1 ∧ Host.Core.run Sys2Proof.core k s = .next t ∧ t.status ≠ .running := by
  induction d generalizing s with
  | zero =>
    obtain ⟨t, h⟩ := step_next hinv hs
    refine ⟨1, t, Nat.le_refl 1, run_next (M := Sys2Proof.core) h, fun hr => ?_⟩
    obtain ⟨i, rest, -, hip, hle⟩ := step_ip_running h hr
    omega
  | succ d ih =>
    obtain ⟨t, h⟩ := step_next hinv hs
    by_cases hr : t.status = .running
    · obtain ⟨i, rest, -, hip, hle⟩ := step_ip_running h hr
      have hprog := (step_effect h).prog_cfg.1
      obtain ⟨k, u, hk, hrun, hu⟩ := ih (hinv.step h) hr (by rw [hprog]; omega)
      exact ⟨k + 1, u, by omega, (run_next (M := Sys2Proof.core) h).trans hrun, hu⟩
    · exact ⟨1, t, by omega, run_next (M := Sys2Proof.core) h, hr⟩

theorem Memory.range_of_read_ne {m : Memory} (h : m.wf) {a x : Nat} {bs : List Byte}
    (hne : (m.writeBytes a bs).read x ≠ m.read x) : a ≤ x ∧ x < a + bs.length := by
  by_contra hout
  exact hne (Memory.read_writeBytes_outside m h a bs x (by omega))

end Sys2Proof.Machine

section
open Sys2Proof Sys2Proof.Machine

/-- Settles O4: each of the six effects of a step keeps the invariant. -/
theorem stepKeepsInvariant : Obligations.StepKeepsInvariant := by
  unfold Obligations.StepKeepsInvariant
  exact fun s t hinv h => hinv.step h

/-- Settles O43, by induction on the bytes left in the program. -/
theorem everyRunEnds : Obligations.EveryRunEnds := by
  unfold Obligations.EveryRunEnds
  refine ⟨fun s hinv hs => run_ends hinv hs (Nat.le_refl _), fun c p hc hp => ?_⟩
  exact run_ends (inv_start hc hp) rfl (Nat.le_refl _)

/-- Settles O6. -/
theorem runningStatesTakeAStep : Obligations.RunningStatesTakeAStep := by
  unfold Obligations.RunningStatesTakeAStep
  exact fun s => step_next

/-- Settles O38: the final extraction reads operand A at width 8. -/
theorem finalExtractionReportsTheTopEightBytes : Obligations.FinalExtractionReportsTheTopEightBytes := by
  unfold Obligations.FinalExtractionReportsTheTopEightBytes
  intro s hinv hs hend
  rw [step_eq_finalExtraction hs hend, finalExtraction_eq hinv]
  refine ⟨fun hn => if_pos hn, fun hn => ?_⟩
  have haddr : s.addrA .dw = s.top - 7 := by
    rw [State.addrA, show Width.dw.bytes = 8 from rfl]
    omega
  rw [if_neg (by omega), State.reported, State.operandA, haddr]
  rfl

/-- Settles O39: of the six effects only the report sets `DONE` or writes `RESULT`. -/
theorem runEndsOnlyWhereTheSpecSays : Obligations.RunEndsOnlyWhereTheSpecSays := by
  unfold Obligations.RunEndsOnlyWhereTheSpecSays
  intro s t hinv hs h
  have herr : s.err = .none := hinv.err_iff.mpr (by rw [hs]; decide)
  have hdone : s.status ≠ .done := by rw [hs]; decide
  have hfault : s.status ≠ .faulted := by rw [hs]; decide
  refine ⟨⟨fun hd => ?_, fun ⟨hend, hn⟩ => ?_⟩, fun hres => ?_, fun hd => ?_, fun hf => ?_⟩
  · cases step_effect h with
    | skip | push | pop | compute => exact absurd hd hdone
    | report hend hn => exact ⟨hend, hn⟩
    | raise => cases hd
  · rw [step_eq_finalExtraction hs hend, finalExtraction_eq hinv, if_neg (by omega)] at h
    cases h
    rfl
  · cases step_effect h with
    | skip | push | pop | compute | raise => exact absurd rfl hres
    | report => rfl
  · cases step_effect h with
    | skip | push | pop | compute => exact absurd hd hdone
    | report => exact ⟨rfl, herr⟩
    | raise => cases hd
  · cases step_effect h with
    | skip | push | pop | compute => exact absurd hf hfault
    | report => cases hf
    | raise k => exact ⟨k, rfl, rfl⟩

/-- Settles O40. -/
theorem programAndParametersNeverChange : Obligations.ProgramAndParametersNeverChange := by
  unfold Obligations.ProgramAndParametersNeverChange
  exact fun s t h => (step_effect h).prog_cfg

/-- Settles O41: the bytes written are the pushed ones, or the result where operand B stood. -/
theorem onlyLiveBytesAreWritten : Obligations.OnlyLiveBytesAreWritten := by
  unfold Obligations.OnlyLiveBytesAreWritten
  intro s t a hinv h hne
  have hs := running_of_step h
  have hlow := hinv.stack.neg_one_le
  have hhigh := hinv.stack.lt_capacity
  cases step_effect h with
  | skip | pop | report | raise => exact absurd rfl hne
  | push n imm hi hl hc =>
    have ⟨h1, h2⟩ := Memory.range_of_read_ne hinv.mem_wf hne
    have htop : (s.pushed n imm).top = s.top + n.bytes := rfl
    unfold State.pushAddr at h1 h2
    exact ⟨by omega, by omega, by omega, hs⟩
  | compute o n hip hn =>
    have ⟨h1, h2⟩ := Memory.range_of_read_ne hinv.mem_wf hne
    have htop : (s.computed o n).top = s.top - n.bytes := rfl
    have hbytes := n.bytes_le
    rw [State.arithBytes_length] at h2
    unfold State.addrB at h1 h2
    exact ⟨by omega, by omega, by omega, hs⟩

/-- Settles O42. -/
theorem ipStrictlyIncreases : Obligations.IpStrictlyIncreases := by
  unfold Obligations.IpStrictlyIncreases
  intro s t _ hs h
  refine ⟨fun hr => ?_, (step_effect h).ip_of_not_running hs⟩
  obtain ⟨i, rest, hf, hip, hle⟩ := step_ip_running h hr
  exact ⟨by omega, hle, i, rest, hf, hip⟩

/-- Settles O3: after reset the stack is empty and nothing is in error. -/
theorem startSatisfiesInvariant : Obligations.StartSatisfiesInvariant := by
  unfold Obligations.StartSatisfiesInvariant
  exact ⟨fun c p => inv_start, inv_start (by decide) (Nat.zero_le _)⟩

/-- Settles O7. -/
theorem stoppedStatesTakeNoStep : Obligations.StoppedStatesTakeNoStep := by
  unfold Obligations.StoppedStatesTakeNoStep
  exact fun s => step_of_not_running

end

/-! Proofs about the bytes no rule reads (R13, R15, R18): states that agree on everything live answer alike, and the
answers agree again. -/

namespace Sys2Proof.Machine

/-- Writing the same bytes over memories that agree outside them gives the same read at every such address. -/
theorem Memory.read_writeBytes_congr {m m' : Memory} (h : m.wf) (h' : m'.wf) {a x : Nat} {bs : List Byte}
    (hx : ¬(a ≤ x ∧ x < a + bs.length) → m.read x = m'.read x) :
    (m.writeBytes a bs).read x = (m'.writeBytes a bs).read x := by
  induction bs generalizing m m' a with
  | nil => exact hx (by rw [List.length_nil]; omega)
  | cons b bs ih =>
    refine ih (Memory.write_wf m h a b) (Memory.write_wf m' h' a b) fun hout => ?_
    rw [Memory.read_write m h, Memory.read_write m' h']
    split
    · rfl
    · exact hx (by rw [List.length_cons]; omega)

theorem SameLive.fetch {s t : State} (h : SameLive s t) : s.fetch = t.fetch := by
  rw [State.fetch, State.fetch, State.fetchBytes, State.fetchBytes, h.prog, h.ip]

/-- Live bytes read alike as a sequence. -/
theorem SameLive.readBytes {s t : State} (h : SameLive s t) {a n : Nat} (ha : (a : Int) + n ≤ s.top + 1) :
    s.stack.readBytes a n = t.stack.readBytes a n :=
  Memory.readBytes_congr fun x _ hx => h.live x (by omega)

theorem SameLive.operandA {s t : State} (h : SameLive s t) {n : Width} (hn : (n.bytes : Int) ≤ s.top + 1) :
    s.operandA n = t.operandA n := by
  have haddr : s.addrA n = t.addrA n := by rw [State.addrA, State.addrA, h.top]
  rw [State.operandA, State.operandA, ← haddr, h.readBytes (by unfold State.addrA; omega)]

theorem SameLive.operandB {s t : State} (h : SameLive s t) {n : Width} (hn : 2 * (n.bytes : Int) ≤ s.top + 1) :
    s.operandB n = t.operandB n := by
  have haddr : s.addrB n = t.addrB n := by rw [State.addrB, State.addrB, h.top]
  rw [State.operandB, State.operandB, ← haddr, h.readBytes (by unfold State.addrB; omega)]

theorem SameLive.arithBytes {s t : State} (h : SameLive s t) (o : ArithOp) {n : Width}
    (hn : 2 * (n.bytes : Int) ≤ s.top + 1) : s.arithBytes o n = t.arithBytes o n := by
  rw [State.arithBytes, State.arithBytes, h.operandA (by omega), h.operandB hn]

theorem SameLive.advance {s t : State} (h : SameLive s t) (w : Nat) : SameLive (s.advance w) (t.advance w) :=
  ⟨h.cfg, h.prog, by rw [State.advance_ip, State.advance_ip, h.ip], h.top, h.live, h.status, h.err, h.result⟩

/-- Lowering the top leaves fewer bytes to agree on. -/
theorem SameLive.setTop {s t : State} (h : SameLive s t) {x : Int} (hx : x ≤ s.top) :
    SameLive (s.setTop x) (t.setTop x) :=
  ⟨h.cfg, h.prog, h.ip, rfl, fun a ha => h.live a (Int.le_trans ha hx), h.status, h.err, h.result⟩

/-- Fault entry leaves `DONE` unreached, so `RESULT` stays unread. -/
theorem SameLive.raised {s t : State} (h : SameLive s t) (k : FaultKind) : SameLive (s.raised k) (t.raised k) :=
  ⟨h.cfg, h.prog, h.ip, h.top, h.live, rfl, rfl, fun hd => by cases hd⟩

theorem SameLive.pushed {s t : State} (h : SameLive s t) (hs : Inv s) (ht : Inv t) {n : Width} {imm : List Byte}
    (hi : imm.length = n.bytes) : SameLive (s.pushed n imm) (t.pushed n imm) := by
  have haddr : s.pushAddr = t.pushAddr := by rw [State.pushAddr, State.pushAddr, h.top]
  have hip : s.ip + 1 + n.bytes = t.ip + 1 + n.bytes := by rw [h.ip]
  have htop : s.top + n.bytes = t.top + n.bytes := by rw [h.top]
  have hlow := hs.stack.neg_one_le
  refine ⟨h.cfg, h.prog, hip, htop, fun a ha => ?_, h.status, h.err, h.result⟩
  have hlive : (a : Int) ≤ s.top + n.bytes := ha
  change (s.stack.writeBytes s.pushAddr.toNat imm).read a = (t.stack.writeBytes t.pushAddr.toNat imm).read a
  rw [← haddr]
  refine Memory.read_writeBytes_congr hs.mem_wf ht.mem_wf fun hout => h.live a ?_
  unfold State.pushAddr at hout
  omega

theorem SameLive.popped {s t : State} (h : SameLive s t) (n : Width) : SameLive (s.popped n) (t.popped n) := by
  rw [State.popped, State.popped, ← h.top]
  exact (h.setTop (by omega)).advance 0

theorem SameLive.computed {s t : State} (h : SameLive s t) (hs : Inv s) (ht : Inv t) (o : ArithOp) {n : Width}
    (hn : 2 * (n.bytes : Int) ≤ s.top + 1) : SameLive (s.computed o n) (t.computed o n) := by
  have haddr : s.addrB n = t.addrB n := by rw [State.addrB, State.addrB, h.top]
  have hip : s.ip + 1 = t.ip + 1 := by rw [h.ip]
  have htop : s.top - n.bytes = t.top - n.bytes := by rw [h.top]
  refine ⟨h.cfg, h.prog, hip, htop, fun a ha => ?_, h.status, h.err, h.result⟩
  have hlive : (a : Int) ≤ s.top - n.bytes := ha
  change (s.stack.writeBytes (s.addrB n).toNat (s.arithBytes o n)).read a =
    (t.stack.writeBytes (t.addrB n).toNat (t.arithBytes o n)).read a
  rw [← haddr, ← h.arithBytes o hn]
  exact Memory.read_writeBytes_congr hs.mem_wf ht.mem_wf fun _ => h.live a (by omega)

/-- The reported result is computed from live bytes, so it is the same in both. -/
theorem SameLive.reported {s t : State} (h : SameLive s t) (hn : 8 ≤ s.top + 1) :
    SameLive s.reported t.reported := by
  have hA : s.operandA .dw = t.operandA .dw := h.operandA hn
  have htop : s.top - 8 = t.top - 8 := by rw [h.top]
  refine ⟨h.cfg, h.prog, h.ip, htop, fun a ha => h.live a ?_, rfl, h.err, fun _ => congrArg (BitVec.ofNat 64) hA⟩
  have hlive : (a : Int) ≤ s.top - 8 := ha
  omega

theorem SameLive.observe {s t : State} (h : SameLive s t) : s.observe = t.observe := by
  rw [State.observe, State.observe, ← h.status]
  cases hs : s.status with
  | running => rfl
  | done => exact congrArg Observation.result (h.result hs)
  | faulted => exact congrArg Observation.failed h.err

/-- Two outcomes of the same kind: next states that agree on everything live, or the same stop. -/
inductive SameOutcome : Host.Outcome State Fault Refusal → Host.Outcome State Fault Refusal → Prop where
  | next {s t : State} (h : SameLive s t) : SameOutcome (.next s) (.next t)
  | fault (f : Fault) : SameOutcome (.fault f) (.fault f)
  | refused (r : Refusal) : SameOutcome (.refused r) (.refused r)

theorem SameLive.pushImm {s t : State} (h : SameLive s t) (hs : Inv s) (ht : Inv t) (n : Width) (imm : List Byte) :
    SameOutcome (pushImm n imm s) (pushImm n imm t) := by
  rw [pushImm_eq hs, pushImm_eq ht, ← h.prog, ← h.ip, ← h.cfg, ← h.top]
  split_ifs with hi hl hc
  · exact .refused _
  · exact .next (h.raised _)
  · exact .next (h.raised _)
  · exact .next (h.pushed hs ht (not_not.mp hi))

theorem SameLive.popDiscard {s t : State} (h : SameLive s t) (hs : Inv s) (ht : Inv t) (n : Width) :
    SameOutcome (popDiscard n s) (popDiscard n t) := by
  rw [popDiscard_eq hs, popDiscard_eq ht, ← h.top]
  split_ifs
  · exact .next (h.raised _)
  · exact .next (h.popped n)

theorem SameLive.arithStep {s t : State} (h : SameLive s t) (hs : Inv s) (ht : Inv t) (o : ArithOp) (n : Width) :
    SameOutcome (arithStep o n s) (arithStep o n t) := by
  rw [arithStep_eq hs, arithStep_eq ht, ← h.top]
  by_cases hn : s.top + 1 < 2 * n.bytes
  · rw [if_pos hn, if_pos hn]
    exact .next (h.raised _)
  · rw [if_neg hn, if_neg hn, ← h.operandB (by omega)]
    split_ifs
    · exact .next (h.raised _)
    · exact .next (h.computed hs ht o (by omega))

theorem SameLive.finalExtraction {s t : State} (h : SameLive s t) (hs : Inv s) (ht : Inv t) :
    SameOutcome (finalExtraction s) (finalExtraction t) := by
  rw [finalExtraction_eq hs, finalExtraction_eq ht, ← h.top]
  split_ifs
  · exact .next (h.raised _)
  · exact .next (h.reported (by omega))

theorem SameLive.exec {s t : State} (h : SameLive s t) (hs : Inv s) (ht : Inv t) (i : Instr) :
    SameOutcome (exec i s) (exec i t) := by
  rcases instr_shapes i with rfl | rfl | ⟨n, imm, rfl⟩ | ⟨n, rfl⟩ | ⟨o, n, rfl⟩
  · exact .next (h.advance 0)
  · exact .next (h.advance 0)
  · rw [exec_push, exec_push]
    exact h.pushImm hs ht n imm
  · rw [exec_pop, exec_pop]
    exact h.popDiscard hs ht n
  · rw [exec_arith, exec_arith]
    exact h.arithStep hs ht o n

/-- The step fetches alike in both states and so takes the same branch of R70. -/
theorem SameLive.step {s t : State} (h : SameLive s t) (hs : Inv s) (ht : Inv t) :
    SameOutcome (step s) (step t) := by
  rcases step_cases s with ⟨hr, he⟩ | ⟨hr, hend, he⟩ | ⟨hr, -, i, rest, hf, he⟩ | ⟨hr, -, op, hf, he⟩ |
    ⟨hr, -, n, hf, he⟩ <;> rw [he] <;> rw [h.status] at hr
  · rw [step_of_not_running hr]
    exact .fault _
  · rw [step_eq_finalExtraction hr (h.prog ▸ h.ip ▸ hend)]
    exact h.finalExtraction hs ht
  · rw [step_eq_exec_of_decode hr (h.fetch ▸ hf)]
    exact h.exec hs ht i
  · rw [step_of_fetch_invalid hr (h.fetch ▸ hf)]
    exact .next (h.raised _)
  · rw [step_of_fetch_truncated hr (h.fetch ▸ hf)]
    exact .next (h.raised _)

theorem SameOutcome.next_left {s' : State} {y : Host.Outcome State Fault Refusal} (h : SameOutcome (.next s') y) :
    ∃ t', y = .next t' ∧ SameLive s' t' := by
  cases h with
  | next hlive => exact ⟨_, rfl, hlive⟩

theorem SameOutcome.fault_iff {x y : Host.Outcome State Fault Refusal} (h : SameOutcome x y) (f : Fault) :
    x = .fault f ↔ y = .fault f := by
  cases h with
  | next => exact ⟨nofun, nofun⟩
  | fault => exact Iff.rfl
  | refused => exact Iff.rfl

end Sys2Proof.Machine

section
open Sys2Proof Sys2Proof.Machine

/-- Settles O44: each branch of the step reads only live bytes and keeps the agreement. -/
theorem deadBytesAndStaleResultAreNeverRead : Obligations.DeadBytesAndStaleResultAreNeverRead := by
  unfold Obligations.DeadBytesAndStaleResultAreNeverRead
  intro s t hs ht h
  have hsame := h.step hs ht
  refine ⟨fun s' hstep => ?_, hsame.fault_iff⟩
  rw [hstep] at hsame
  obtain ⟨t', ht', hlive⟩ := hsame.next_left
  exact ⟨t', ht', hlive, hlive.observe⟩

end

/-! Proofs about the stack operations (R34 to R40, R79, R99, R100, R110): byte sequences read from and written to the
stack, push against pop, and the arithmetic block against its two pops and a push. -/

namespace Sys2Proof.Machine

theorem Memory.getElem?_readBytes (m : Memory) {a n k : Nat} (hk : k < n) :
    (m.readBytes a n)[k]? = some (m.read (a + k)) := by
  induction n generalizing a k with
  | zero => exact absurd hk (Nat.not_lt_zero k)
  | succ n ih =>
    cases k with
    | zero => rfl
    | succ k =>
      rw [Memory.readBytes, List.getElem?_cons_succ, ih (by omega)]
      congr 2
      omega

/-- R6 for a sequence read from memory: byte `k` weighs `256^k` (D4). -/
theorem leNat_readBytes (m : Memory) (a n : Nat) :
    leNat (m.readBytes a n) = ∑ k ∈ Finset.range n, 256 ^ k * (m.read (a + k)).toNat := by
  induction n generalizing a with
  | zero => rfl
  | succ n ih =>
    rw [Memory.readBytes, leNat, ih, Finset.sum_range_succ', Finset.mul_sum, Nat.add_comm, pow_zero, Nat.one_mul]
    congr 1
    refine Finset.sum_congr rfl fun k _ => ?_
    rw [pow_succ', Nat.mul_assoc, Nat.add_right_comm, Nat.add_assoc]

/-- The same, from an address given relative to `top`. -/
theorem leNat_readBytes_toNat (m : Memory) {a : Int} (ha : 0 ≤ a) (n : Nat) :
    leNat (m.readBytes a.toNat n) = ∑ k ∈ Finset.range n, 256 ^ k * (m.read (a + k).toNat).toNat := by
  rw [leNat_readBytes]
  refine Finset.sum_congr rfl fun k _ => ?_
  rw [Int.toNat_add ha (Int.natCast_nonneg k), Int.toNat_natCast]

/-- Dropping the low bytes of a little-endian number divides it (R40). -/
theorem leNat_drop (bs : List Byte) (k : Nat) : leNat (bs.drop k) = leNat bs / 2 ^ (8 * k) := by
  induction k generalizing bs with
  | zero => rw [List.drop_zero, Nat.mul_zero, pow_zero, Nat.div_one]
  | succ k ih =>
    cases bs with
    | nil => rw [List.drop_nil, leNat, Nat.zero_div]
    | cons b bs =>
      have hb := b.isLt
      have hhead : leNat (b :: bs) / 2 ^ 8 = leNat bs := by
        rw [leNat]
        omega
      rw [List.drop_succ_cons, ih, Nat.mul_succ, Nat.add_comm, pow_add, ← Nat.div_div_eq_div_mul, hhead]

/-- The upper part of a written sequence reads back as its last bytes. -/
theorem Memory.readBytes_writeBytes_drop {m : Memory} (h : m.wf) (a : Nat) (bs : List Byte) {k : Nat}
    (hk : k ≤ bs.length) : (m.writeBytes a bs).readBytes (a + k) (bs.length - k) = bs.drop k := by
  have hall := Memory.readBytes_writeBytes m h a bs
  conv at hall => lhs; rw [← Nat.add_sub_cancel' hk, Memory.readBytes_add]
  rw [← congrArg (List.drop k) hall, List.drop_left' (Memory.readBytes_length _ _ _)]

/-- A pop after a push takes the last `M` of the `N` bytes pushed (R40, R99, R100). -/
theorem State.pop_of_push {s s1 : State} {n m : Width} {b : List Byte} (hinv : Inv s) (hmn : m.bytes ≤ n.bytes)
    (hb : b.length = n.bytes) (h : s.push n b = .ok s1) :
    s1.pop m = .ok (b.drop (n.bytes - m.bytes), s1.setTop (s.top + n.bytes - m.bytes)) := by
  have hlow := hinv.stack.neg_one_le
  rcases s.push_cases n b with ⟨-, he⟩ | ⟨hc, hp, -, he⟩ | ⟨-, he⟩ <;> rw [he] at h <;> cases h
  have haddr : ∀ t : State, t.top = s.top + n.bytes → (t.addrA m).toNat = s.pushAddr.toNat + (n.bytes - m.bytes) := by
    intro t ht
    unfold State.addrA State.pushAddr
    omega
  rw [State.pop_ok (by rw [State.setTop_top]; omega) hc, haddr _ rfl]
  have hread := Memory.readBytes_writeBytes_drop hinv.mem_wf s.pushAddr.toNat b (k := n.bytes - m.bytes) (by omega)
  rw [hb, Nat.sub_sub_self hmn] at hread
  rw [← hread]
  rfl

/-- A push writes above the live bytes only (R35). -/
theorem State.read_push_live {s : State} (hinv : Inv s) (b : List Byte) {a : Nat} (ha : (a : Int) ≤ s.top) :
    (s.stack.writeBytes s.pushAddr.toNat b).read a = s.stack.read a :=
  Memory.read_writeBytes_outside _ hinv.mem_wf _ b a (.inl (by unfold State.pushAddr; omega))

/-- What a completed pop took and left (R36). -/
theorem State.pop_ok_inv {s t : State} {n : Width} {b : List Byte} (h : s.pop n = .ok (b, t)) :
    (n.bytes : Int) ≤ s.top + 1 ∧ t = s.setTop (s.top - n.bytes) := by
  rcases s.pop_cases n with ⟨-, he⟩ | ⟨hn, -, he⟩ | ⟨-, he⟩ <;> rw [he] at h <;> cases h
  exact ⟨hn, rfl⟩

theorem State.pop_underflow_iff {s : State} {n : Width} :
    s.pop n = .error (.raise .stackUnderflow) ↔ s.top + 1 < n.bytes := by
  refine ⟨fun h => ?_, fun h => if_pos h⟩
  rcases s.pop_cases n with ⟨hn, -⟩ | ⟨-, -, he⟩ | ⟨-, he⟩
  · exact hn
  · rw [he] at h
    cases h
  · rw [he] at h
    cases h

theorem State.arith_underflow_iff {s : State} {o : ArithOp} {n : Width} :
    s.arith o n = .error (.raise .stackUnderflow) ↔ s.top + 1 < 2 * n.bytes := by
  refine ⟨fun h => ?_, fun h => if_pos h⟩
  rcases s.arith_cases o n with ⟨hn, -⟩ | ⟨-, -, -, -, he⟩ | ⟨-, -, -, he⟩ | ⟨-, he⟩
  · exact hn
  all_goals
    rw [he] at h
    cases h

/-- The procedure of R110 where `2N` bytes are live: the two pops take A then B, and the push of the unit's result has
room, because it goes where B stood. -/
theorem State.pop_pop_push {s : State} {n : Width} (hinv : Inv s) (hn : 2 * (n.bytes : Int) ≤ s.top + 1)
    (o : ArithOp) : ∃ a b s1 s2, s.pop n = .ok (a, s1) ∧ s1.pop n = .ok (b, s2) ∧ leNat a = s.operandA n ∧
      leNat b = s.operandB n ∧ s2.push n (s.arithBytes o n) =
        .ok ({ s with stack := s.stack.writeBytes (s.addrB n).toNat (s.arithBytes o n) }.setTop (s.top - n.bytes)) := by
  have hhigh := hinv.stack.lt_capacity
  have hpop1 := State.pop_ok (s := s) (n := n) (by omega) hhigh
  have hpop2 := State.pop_ok (s := s.setTop (s.top - n.bytes)) (n := n)
    (by rw [State.setTop_top]; omega) (by rw [State.setTop_top, State.setTop_cfg]; omega)
  have haddr : (s.setTop (s.top - n.bytes)).addrA n = s.addrB n := by
    rw [State.addrA, State.addrB, State.setTop_top]
    omega
  refine ⟨_, _, _, _, hpop1, hpop2, rfl, by rw [haddr]; rfl, ?_⟩
  rw [State.push_ok (s.arithBytes_length o n) (by rw [State.setTop_top, State.setTop_top]; omega)
    (by simp only [State.setTop_top, State.setTop_cfg]; omega)]
  have hpush : ((s.setTop (s.top - n.bytes)).setTop (s.top - n.bytes - n.bytes)).pushAddr = s.addrB n := by
    rw [State.pushAddr, State.addrB, State.setTop_top]
    omega
  have htop : s.top - n.bytes - n.bytes + n.bytes = s.top - n.bytes := by omega
  simp only [State.setTop_top, hpush, htop]
  rfl

/-- Two pops that complete one after the other took `2N` live bytes. -/
theorem State.le_of_pop_pop {s s1 s2 : State} {n : Width} {a b : List Byte} (h1 : s.pop n = .ok (a, s1))
    (h2 : s1.pop n = .ok (b, s2)) : 2 * (n.bytes : Int) ≤ s.top + 1 := by
  obtain ⟨-, rfl⟩ := State.pop_ok_inv h1
  obtain ⟨hn, -⟩ := State.pop_ok_inv h2
  rw [State.setTop_top] at hn
  omega

/-- R110: the folded block completes as the procedure does. -/
theorem State.arith_ok_iff {s t : State} {o : ArithOp} {n : Width} (hinv : Inv s) :
    s.arith o n = .ok t ↔ ∃ a b s1 s2, s.pop n = .ok (a, s1) ∧ s1.pop n = .ok (b, s2) ∧
      ¬(o = .div ∧ leNat b = 0) ∧
      s2.push n (leBytes n.bytes (truncN n.bytes (alu o (zext64 (leNat a)) (zext64 (leNat b))))) = .ok t := by
  constructor
  · intro h
    rcases s.arith_cases o n with ⟨-, he⟩ | ⟨-, -, -, -, he⟩ | ⟨hn, -, hz, he⟩ | ⟨-, he⟩ <;> rw [he] at h <;> cases h
    obtain ⟨a, b, s1, s2, hpop1, hpop2, hA, hB, hpush⟩ := State.pop_pop_push hinv hn o
    refine ⟨a, b, s1, s2, hpop1, hpop2, by rwa [hB], ?_⟩
    rw [hA, hB]
    exact hpush
  · rintro ⟨a', b', s1', s2', hpop1', hpop2', hz, hpush'⟩
    have hn := State.le_of_pop_pop hpop1' hpop2'
    obtain ⟨a, b, s1, s2, hpop1, hpop2, hA, hB, hpush⟩ := State.pop_pop_push hinv hn o
    cases hpop1.symm.trans hpop1'
    cases hpop2.symm.trans hpop2'
    rw [hB] at hz
    rw [hA, hB] at hpush'
    rw [State.arith_ok hn hinv.stack.lt_capacity hz, ← hpush]
    exact hpush'

/-- R110: the folded block underflows where the first or the second pop of the procedure does. -/
theorem State.arith_underflow_iff_pop {s : State} {o : ArithOp} {n : Width} (hinv : Inv s) :
    s.arith o n = .error (.raise .stackUnderflow) ↔ s.pop n = .error (.raise .stackUnderflow) ∨
      ∃ a s1, s.pop n = .ok (a, s1) ∧ s1.pop n = .error (.raise .stackUnderflow) := by
  rw [State.arith_underflow_iff, State.pop_underflow_iff]
  constructor
  · intro hshort
    rcases lt_or_ge (s.top + 1) (n.bytes : Int) with hn | hn
    · exact .inl hn
    · refine .inr ⟨_, _, State.pop_ok hn hinv.stack.lt_capacity, State.pop_underflow_iff.mpr ?_⟩
      rw [State.setTop_top]
      omega
  · rintro (hn | ⟨a, s1, hpop, hunder⟩)
    · omega
    · obtain ⟨-, rfl⟩ := State.pop_ok_inv hpop
      have hn := State.pop_underflow_iff.mp hunder
      rw [State.setTop_top] at hn
      omega

end Sys2Proof.Machine

section
open Sys2Proof Sys2Proof.Machine

/-- Settles O16. -/
theorem pushCompletes : Obligations.PushCompletes := by
  unfold Obligations.PushCompletes
  intro n imm s hinv hi hl hc
  rw [exec_push]
  exact pushImm_appends hinv hi hl hc

/-- Settles O17: the check of the program's end stands before the check of the capacity, and both before the store. -/
theorem pushTrapsInOrder : Obligations.PushTrapsInOrder := by
  unfold Obligations.PushTrapsInOrder
  intro n imm s hi
  rw [exec_push]
  exact ⟨pushImm_truncated hi, pushImm_overflow hi⟩

/-- Settles O34: only a PUSH opcode with its whole immediate and no room raises it. -/
theorem stackOverflowExactlyWhen : Obligations.StackOverflowExactlyWhen := by
  unfold Obligations.StackOverflowExactlyWhen
  intro s hinv hs
  refine ⟨fun n hop hl hc => step_eq_raised hinv hs (.overflow n hop hl hc), fun t h he => ?_⟩
  cases raises_of_step_err hinv hs h he with
  | overflow n hop hl hc => exact ⟨n, hop, hl, hc⟩

/-- Settles O28: with `2N` live bytes the two pops and the push do what the folded block does; with fewer, one of the
two pops underflows, as the block does. -/
theorem arithIsPopPopPush : Obligations.ArithIsPopPopPush := by
  unfold Obligations.ArithIsPopPopPush
  exact fun o n s t hinv => ⟨State.arith_ok_iff hinv, State.arith_underflow_iff_pop hinv⟩

/-- Settles O21. -/
theorem operandsAreLittleEndian : Obligations.OperandsAreLittleEndian := by
  unfold Obligations.OperandsAreLittleEndian
  intro n s hn
  have hA : 0 ≤ s.addrA n := by unfold State.addrA; omega
  have hB : 0 ≤ s.addrB n := by unfold State.addrB; omega
  exact ⟨leNat_readBytes_toNat s.stack hA _, leNat_readBytes_toNat s.stack hB _⟩

end

/-! Proofs about round trips on the stack (R99, R100), the signed quotient (R135), `peek_debug` (R79) and the registers
as bit patterns (R11, R12). -/

namespace Sys2Proof.Machine

/-- R135: at width 8 the stored number is the truncated signed quotient modulo `2^64`. -/
theorem State.leNat_arithBytes_div_dw (s : State) :
    leNat (s.arithBytes .div .dw) =
      ((BitVec.ofNat 64 (s.operandA .dw)).toInt.tdiv (BitVec.ofNat 64 (s.operandB .dw)).toInt % 2 ^ 64).toNat := by
  have hfull : truncN Width.dw.bytes (alu .div (zext64 (s.operandA .dw)) (zext64 (s.operandB .dw))) =
      (alu .div (zext64 (s.operandA .dw)) (zext64 (s.operandB .dw))).toNat := Nat.mod_eq_of_lt (BitVec.isLt _)
  rw [s.leNat_arithBytes, hfull, alu_div, BitVec.toNat_ofInt]
  rfl

/-- Push then pop at one width (R99). -/
theorem State.pop_push_same {s s1 : State} {n : Width} {b : List Byte} (hinv : Inv s) (hb : b.length = n.bytes)
    (h : s.push n b = .ok s1) : s1.pop n = .ok (b, s1.setTop s.top) := by
  rw [State.pop_of_push hinv (Nat.le_refl _) hb h, Nat.sub_self, List.drop_zero, Int.add_sub_cancel]

theorem pushImm_ok {n : Width} {imm : List Byte} {s : State} (hinv : Inv s) (hi : imm.length = n.bytes)
    (hl : s.ip + n.bytes < s.prog.length) (hc : s.top + n.bytes < s.cfg.capacity) :
    pushImm n imm s = .next (s.pushed n imm) := by
  rw [pushImm_eq hinv, if_neg (not_not_intro hi), if_neg (Nat.not_le.mpr hl), if_neg (Int.not_le.mpr hc)]

@[simp] theorem State.pushed_top (s : State) (n : Width) (imm : List Byte) :
    (s.pushed n imm).top = s.top + n.bytes := rfl
@[simp] theorem State.pushed_stack (s : State) (n : Width) (imm : List Byte) :
    (s.pushed n imm).stack = s.stack.writeBytes s.pushAddr.toNat imm := rfl
@[simp] theorem State.pushed_cfg (s : State) (n : Width) (imm : List Byte) : (s.pushed n imm).cfg = s.cfg := rfl

/-- A POP after a PUSH of the same width completes, whatever stands in the program (R99). -/
theorem popDiscard_pushed {s : State} (hinv : Inv s) {n : Width} {imm : List Byte}
    (hc : s.top + n.bytes < s.cfg.capacity) :
    popDiscard n (s.pushed n imm) = .next ((s.pushed n imm).popped n) := by
  have hlow := hinv.stack.neg_one_le
  rcases popDiscard_cases n (s.pushed n imm) with ⟨hn, -⟩ | ⟨-, -, he⟩ | ⟨hover, -⟩
  · rw [State.pushed_top] at hn
    omega
  · exact he
  · rw [State.pushed_top, State.pushed_cfg] at hover
    omega

theorem State.peekDebug_length (s : State) : s.peekDebug.length = (s.top + 1).toNat := by
  rw [State.peekDebug, List.length_reverse, Memory.readBytes_length]

theorem State.getElem?_peekDebug {s : State} {k : Nat} (hk : (k : Int) ≤ s.top) :
    s.peekDebug[k]? = some (s.stack.read (s.top - k).toNat) := by
  rw [State.peekDebug, List.getElem?_reverse (by rw [Memory.readBytes_length]; omega), Memory.readBytes_length,
    Memory.getElem?_readBytes _ (by omega)]
  congr 2
  omega

/-- The listing splits at any depth: the top `n` bytes, then what is listed when they are popped. -/
theorem State.peekDebug_split {s : State} {n : Nat} (hn : (n : Int) ≤ s.top + 1) :
    s.peekDebug = (s.stack.readBytes (s.top + 1 - n).toNat n).reverse ++ (s.setTop (s.top - n)).peekDebug := by
  have hlen : (s.top + 1).toNat = (s.top - n + 1).toNat + n := by omega
  have haddr : 0 + (s.top - n + 1).toNat = (s.top + 1 - n).toNat := by omega
  rw [State.peekDebug, hlen, Memory.readBytes_add, List.reverse_append, haddr]
  rfl

theorem State.peekDebug_popped {s : State} {n : Width} (hn : (n.bytes : Int) ≤ s.top + 1) :
    (s.popped n).peekDebug = s.peekDebug.drop n.bytes := by
  rw [State.peekDebug_split hn, List.drop_left' (by rw [List.length_reverse, Memory.readBytes_length])]
  rfl

theorem State.peekDebug_pushed {s : State} (hinv : Inv s) {n : Width} {imm : List Byte} (hi : imm.length = n.bytes) :
    (s.pushed n imm).peekDebug = imm.reverse ++ s.peekDebug := by
  have hlow := hinv.stack.neg_one_le
  have hnew : (s.top + n.bytes + 1 - n.bytes).toNat = s.pushAddr.toNat := by
    unfold State.pushAddr
    omega
  rw [State.peekDebug_split (n := n.bytes) (by rw [State.pushed_top]; omega), State.pushed_top, State.pushed_stack,
    hnew, ← hi, Memory.readBytes_writeBytes _ hinv.mem_wf]
  congr 1
  have hold : s.top + imm.length - imm.length = s.top := by omega
  rw [State.peekDebug, State.setTop_top, State.setTop_stack, hold, State.pushed_stack]
  exact congrArg List.reverse (Memory.readBytes_congr fun x _ hx => State.read_push_live hinv imm (by omega))

/-- A PUSH that raised neither of its two faults stored its bytes. -/
theorem pushImm_eq_pushed {s t : State} {n : Width} {imm : List Byte} (hinv : Inv s) (h : pushImm n imm s = .next t)
    (ht : t.err ≠ .fault .truncatedProgram) (ho : t.err ≠ .fault .stackOverflow) : t = s.pushed n imm := by
  rw [pushImm_eq hinv] at h
  split_ifs at h <;> cases h
  · exact absurd rfl ht
  · exact absurd rfl ho
  · rfl

theorem popDiscard_eq_popped {s t : State} {n : Width} (hinv : Inv s) (h : popDiscard n s = .next t)
    (hu : t.err ≠ .fault .stackUnderflow) : (n.bytes : Int) ≤ s.top + 1 ∧ t = s.popped n := by
  rw [popDiscard_eq hinv] at h
  split_ifs at h with hn <;> cases h
  · exact absurd rfl hu
  · exact ⟨by omega, rfl⟩

end Sys2Proof.Machine

namespace Sys2Proof

theorem Config.topWidth_pos (c : Config) : 1 ≤ c.topWidth := by
  unfold Config.topWidth
  split <;> omega

/-- `TW` is wide enough (R12). -/
theorem Config.capacity_le_topWidth (c : Config) : c.capacity ≤ 2 ^ (c.topWidth - 1) := by
  unfold Config.topWidth
  split
  · rwa [Nat.sub_self, pow_zero]
  · have hlog := Nat.lt_log2_self (n := c.capacity - 1)
    exact Nat.le_of_pred_lt hlog

/-- No narrower width will do (R12). -/
theorem Config.topWidth_le {c : Config} {w : Nat} (hw : 1 ≤ w) (hc : c.capacity ≤ 2 ^ (w - 1)) : c.topWidth ≤ w := by
  unfold Config.topWidth
  split
  · exact hw
  · have hlog := (Nat.log2_lt (n := c.capacity - 1) (k := w - 1) (by omega)).mpr (by omega)
    omega

end Sys2Proof

namespace Sys2Proof.Machine

theorem Inv.ipBits_toNat {s : State} (h : Inv s) : s.ipBits.toNat = s.ip := by
  have hle := h.ip_le.trans h.prog_fits
  have hpos : 0 < 2 ^ s.cfg.ipWidth := Nat.two_pow_pos _
  unfold Config.maxProgLen at hle
  exact Nat.mod_eq_of_lt (by omega)

theorem Inv.topBits_toInt {s : State} (h : Inv s) : s.topBits.toInt = s.top := by
  have hlow := h.stack.neg_one_le
  have hhigh := h.stack.lt_capacity
  have hcap : (s.cfg.capacity : Int) ≤ 2 ^ (s.cfg.topWidth - 1) := by exact_mod_cast s.cfg.capacity_le_topWidth
  have hvalid : 1 ≤ s.cfg.capacity := h.valid.1
  exact BitVec.toInt_ofInt_eq_self s.cfg.topWidth_pos (by omega) (by omega)

end Sys2Proof.Machine

section
open Sys2Proof Sys2Proof.Machine

/-- Settles O26: the unit's signed division at full width, which needs no truncation. -/
theorem divDwPushesTheSignedQuotient : Obligations.DivDwPushesTheSignedQuotient := by
  unfold Obligations.DivDwPushesTheSignedQuotient
  refine ⟨rfl, fun s hinv => ⟨exec_arith_underflow (o := .div) (n := .dw) hinv,
    exec_div_by_zero (n := .dw) hinv, fun hn hB => ?_⟩⟩
  rw [← s.leNat_arithBytes_div_dw]
  exact exec_arith_replaces (o := .div) (n := .dw) hinv hn fun hz => hB hz.2

/-- Settles O30: the pop reads where the push stored, and the push stored above every live byte. -/
theorem pushThenPopRoundTrip : Obligations.PushThenPopRoundTrip := by
  unfold Obligations.PushThenPopRoundTrip
  intro n b s hinv hb hc
  refine ⟨?_, fun hl => ?_⟩
  · have hpush := State.push_ok hb hinv.stack.neg_one_le hc
    exact ⟨_, _, hpush, State.pop_push_same hinv hb hpush, rfl, fun a ha => State.read_push_live hinv b ha⟩
  · refine ⟨s.pushed n b, (s.pushed n b).popped n, ?_, ?_, ?_, ?_, fun a ha => State.read_push_live hinv b ha⟩
    · rw [exec_push, pushImm_ok hinv hb hl hc]
    · rw [exec_pop, popDiscard_pushed hinv hc]
    · exact Int.add_sub_cancel _ _
    · change s.ip + 1 + n.bytes + 1 + 0 = s.ip + n.bytes + 2
      omega

/-- Settles O31: the `M` topmost bytes are the last of the `N` pushed. -/
theorem narrowPopTakesTheHighBytes : Obligations.NarrowPopTakesTheHighBytes := by
  unfold Obligations.NarrowPopTakesTheHighBytes
  intro n m v s s1 hinv hmn hpush
  refine ⟨_, _, State.pop_of_push hinv hmn (leBytes_length _ _) hpush, rfl, ?_⟩
  rw [leNat_drop, leNat_leBytes]

/-- Settles O45: a push puts its bytes reversed before the listing, and a pop drops as many from its front. -/
theorem peekDebugFollowsTheStack : Obligations.PeekDebugFollowsTheStack := by
  unfold Obligations.PeekDebugFollowsTheStack
  intro s hinv
  refine ⟨s.peekDebug_length, fun k => State.getElem?_peekDebug, fun n imm t hi h ht ho => ?_, fun n t h hu => ?_⟩
  · rw [exec_push] at h
    rw [pushImm_eq_pushed hinv h ht ho, State.peekDebug_pushed hinv hi]
  · rw [exec_pop] at h
    obtain ⟨hn, rfl⟩ := popDiscard_eq_popped hinv h hu
    exact State.peekDebug_popped hn

/-- Settles O46. -/
theorem registersFitTheirWidths : Obligations.RegistersFitTheirWidths := by
  unfold Obligations.RegistersFitTheirWidths
  exact ⟨fun s hinv => ⟨hinv.ipBits_toNat, hinv.topBits_toInt⟩,
    fun c _ => ⟨c.capacity_le_topWidth, c.topWidth_pos, fun w => Config.topWidth_le⟩⟩

end

/-! Proofs of the fixed facts (R26, R73, R115, R140, R170): reset, HALT, the sign cases of division, the port codes, and
terms that are no instruction. -/

namespace Sys2Proof.Machine

/-- Only a PUSH term can be ill-formed, and its meaning refuses it (log 9). -/
theorem exec_illFormed {i : Instr} (s : State) (hi : ¬ i.WellFormed) : exec i s = .refused .illFormedImmediate := by
  by_cases hpush : ∃ n imm, i = .push n imm
  · obtain ⟨n, imm, rfl⟩ := hpush
    rw [exec_push]
    exact pushImm_illFormed s fun hlen => hi (Instr.wellFormed_push.mpr hlen)
  · obtain ⟨hw, himm⟩ := Instr.no_imm_of_not_push fun n imm h => hpush ⟨n, imm, h⟩
    exact absurd (by rw [Instr.WellFormed, himm, hw]; rfl) hi

end Sys2Proof.Machine

section
open Sys2Proof Sys2Proof.Machine

/-- Settles O1. -/
theorem resetLeavesAnEmptyRunningMachine : Obligations.ResetLeavesAnEmptyRunningMachine := by
  unfold Obligations.ResetLeavesAnEmptyRunningMachine
  exact fun c p => ⟨rfl, rfl, rfl, rfl, rfl, rfl, rfl⟩

/-- Settles O2: reset keeps nothing of a state but its parameters. -/
theorem resetForgetsTheRunInProgress : Obligations.ResetForgetsTheRunInProgress := by
  unfold Obligations.ResetForgetsTheRunInProgress
  intro s s' p hcfg
  rw [State.applyReset_eq, State.applyReset_eq, hcfg]
  exact ⟨rfl, rfl, rfl, rfl, rfl⟩

/-- Settles O15: HALT is the advance that NOP is (D3). -/
theorem haltAdvancesIp : Obligations.HaltAdvancesIp := by
  unfold Obligations.HaltAdvancesIp
  refine ⟨rfl, fun s => ?_⟩
  rw [exec_halt, State.advance_zero]

/-- Settles O27, by evaluation of the unit on the listed patterns. -/
theorem signedDivisionCases : Obligations.SignedDivisionCases := by
  unfold Obligations.SignedDivisionCases
  decide

/-- Settles O47. -/
theorem statusAndErrorCodes : Obligations.StatusAndErrorCodes := by
  unfold Obligations.StatusAndErrorCodes
  exact ⟨rfl, rfl, rfl, rfl, rfl, rfl, rfl, rfl, rfl, fun s => ⟨rfl, rfl, rfl⟩⟩

/-- Settles O49. -/
theorem illFormedTermsAreRefused : Obligations.IllFormedTermsAreRefused := by
  unfold Obligations.IllFormedTermsAreRefused
  exact fun i s => exec_illFormed s

end
